-- ==== Sys2Proof/Word.lean ====
section
/-! DEFINITION. Word.lean: the two data widths of the machine (rules R5, R9, R42). -/

namespace Sys2Proof

/-- A Word: an unsigned 16-bit integer; its arithmetic is modulo 2^16 (rules R9, R15, R105). -/
abbrev Word := BitVec 16

/-- A byte of the console's streams and of the object-file image (rules R12, R43, R44). -/
abbrev Byte := BitVec 8

/-- `zext_16(v)`: a byte padded with zeros to a Word (rules R9, R43; decision D11). -/
def zextByte (b : Byte) : Word := b.setWidth 16

/-- `w[7:0]` (rules R8, R43). -/
def lowByte (w : Word) : Byte := w.extractLsb' 0 8

/-- `w[15:8]` (rules R8, R43). -/
def highByte (w : Word) : Byte := w.extractLsb' 8 8

end Sys2Proof
end

