-- ==== Sys2Proof/Syntax.lean ====
section
/-! DEFINITION. Syntax.lean: registers, opcodes and instructions; one constructor of `Instr` per row
of spec/opcode_table.json. Operand fields are the raw fields of the word (rules R66 to R77); they
are extended where an instruction uses them. Ignored bits are no operands (rule R78). -/

namespace Sys2Proof

/-- A general-purpose register name, R0 to R7 (rule R20). -/
inductive Reg where
  | r0 | r1 | r2 | r3 | r4 | r5 | r6 | r7
deriving DecidableEq, Repr

/-- The 16 named opcodes, in the order of rule R80. -/
inductive Opcode where
  | br | add | ld | st | jsr | and | ldr | str | rti | not | ldi | sti | jmp | res | lea | trap
deriving DecidableEq, Repr

/-- The instructions: the 25 rows of spec/opcode_table.json. -/
inductive Instr where
  /-- Row ADD-reg (rule R100): DR, SR1, SR2. -/
  | addReg (dr sr1 sr2 : Reg)
  /-- Row ADD-imm (rule R101): DR, SR1, imm5. -/
  | addImm (dr sr1 : Reg) (imm5 : BitVec 5)
  /-- Row AND-reg (rule R102): DR, SR1, SR2. -/
  | andReg (dr sr1 sr2 : Reg)
  /-- Row AND-imm (rule R103): DR, SR1, imm5. -/
  | andImm (dr sr1 : Reg) (imm5 : BitVec 5)
  /-- Row NOT (rule R104): DR, SR. -/
  | notReg (dr sr : Reg)
  /-- Row BR (rule R110): the bits n, z, p and offset9. -/
  | br (n z p : Bool) (off9 : BitVec 9)
  /-- Row JMP (rule R111): baseR. -/
  | jmp (base : Reg)
  /-- Row JSR (rule R112): offset11. -/
  | jsr (off11 : BitVec 11)
  /-- Row JSRR (rule R113): baseR. -/
  | jsrr (base : Reg)
  /-- Row LD (rule R120): DR, offset9. -/
  | ld (dr : Reg) (off9 : BitVec 9)
  /-- Row LDI (rule R121): DR, offset9. -/
  | ldi (dr : Reg) (off9 : BitVec 9)
  /-- Row LDR (rule R122): DR, baseR, offset6. -/
  | ldr (dr base : Reg) (off6 : BitVec 6)
  /-- Row LEA (rule R123): DR, offset9. -/
  | lea (dr : Reg) (off9 : BitVec 9)
  /-- Row ST (rule R124): SR, offset9. -/
  | st (sr : Reg) (off9 : BitVec 9)
  /-- Row STI (rule R125): SR, offset9. -/
  | sti (sr : Reg) (off9 : BitVec 9)
  /-- Row STR (rule R126): SR, baseR, offset6. -/
  | str (sr base : Reg) (off6 : BitVec 6)
  /-- Row RTI (rule R160). -/
  | rti
  /-- Row RES (rule R161). -/
  | res
  /-- Row TRAP-GETC (rule R142): vector 0x20. -/
  | trapGetc
  /-- Row TRAP-OUT (rule R143): vector 0x21. -/
  | trapOut
  /-- Row TRAP-PUTS (rule R144): vector 0x22. -/
  | trapPuts
  /-- Row TRAP-IN (rule R145): vector 0x23. -/
  | trapIn
  /-- Row TRAP-PUTSP (rule R146): vector 0x24. -/
  | trapPutsp
  /-- Row TRAP-HALT (rule R147): vector 0x25. -/
  | trapHalt
  /-- Row TRAP-BADVEC (rule R148): every other vector. -/
  | trapBadvec (vec : BitVec 8)
deriving DecidableEq, Repr

/-- `RET` = `JMP R7`, "the conventional 'return' encoding" (rules R85, R111). -/
abbrev Instr.ret : Instr := .jmp .r7

/-- `NOP` = `BR` with n = z = p = 0 and offset 0, the word 0x0000 (rules R83, R85). -/
abbrev Instr.nop : Instr := .br false false false 0

end Sys2Proof
end

