-- ==== Sys2Proof/WellFormed.lean ====
section
/-! DEFINITION. WellFormed.lean: which terms of `Instr` stand for instruction words. Register and
immediate operands are bounded by their types, so the one check is that TRAP-BADVEC holds none of
the six vectors that have rows of their own (rules R81, R140, R148). -/

namespace Sys2Proof

/-- The six vectors of the dispatcher's fixed table, 0x20 to 0x25 (rule R140). -/
def definedVector (v : BitVec 8) : Bool := decide (0x20 ≤ v.toNat ∧ v.toNat ≤ 0x25)

/-- The instruction is one that some word decodes to. -/
def Instr.wf : Instr → Bool
  | .addReg _ _ _ | .addImm _ _ _ | .andReg _ _ _ | .andImm _ _ _ | .notReg _ _ => true
  | .br _ _ _ _ | .jmp _ | .jsr _ | .jsrr _ => true
  | .ld _ _ | .ldi _ _ | .ldr _ _ _ | .lea _ _ | .st _ _ | .sti _ _ | .str _ _ _ => true
  | .rti | .res => true
  | .trapGetc | .trapOut | .trapPuts | .trapIn | .trapPutsp | .trapHalt => true
  | .trapBadvec v => !definedVector v

end Sys2Proof
end

