-- ==== Sys2Proof/Decode.lean ====
section
/-! DEFINITION. Decode.lean: component 2 of the CORE, the instruction codec (rules R65 to R86):
field accessors, the decoder, and after it the encoder and the rows' masks. An instruction is one
16-bit word (R65) and every word decodes (R81), so the decoder rejects nothing. -/

namespace Sys2Proof

/-- A 3-bit register field whose value i selects Ri (rule R20). -/
def Reg.ofBits (b : BitVec 3) : Reg :=
  match b.toFin with
  | 0 => .r0 | 1 => .r1 | 2 => .r2 | 3 => .r3 | 4 => .r4 | 5 => .r5 | 6 => .r6 | 7 => .r7

/-- The 3-bit field that names the register (rule R20). -/
def Reg.bits : Reg → BitVec 3
  | .r0 => 0 | .r1 => 1 | .r2 => 2 | .r3 => 3 | .r4 => 4 | .r5 => 5 | .r6 => 6 | .r7 => 7

/-- The 16 names in the order rule R80 lists them. -/
def opcodeNames : List Opcode :=
  [.br, .add, .ld, .st, .jsr, .and, .ldr, .str, .rti, .not, .ldi, .sti, .jmp, .res, .lea, .trap]

/-- The opcode map: the i-th name of the list has value i (rule R80, decision D1). -/
def Opcode.ofBits (b : BitVec 4) : Opcode := opcodeNames[b.toNat]'b.isLt

/-- `ir[15:12]` (rule R66). -/
def opcodeBits (ir : Word) : BitVec 4 := ir.extractLsb' 12 4

/-- `opcode_of(ir)` (rule R66). -/
def opcodeOf (ir : Word) : Opcode := Opcode.ofBits (opcodeBits ir)

/-- `ir[5]`, the form of ADD and AND (rule R67). -/
def immediateFlag (ir : Word) : Bool := ir.getLsbD 5

/-- `ir[11:9]`: DR, and SR of the stores (rule R68). -/
def drField (ir : Word) : Reg := Reg.ofBits (ir.extractLsb' 9 3)

/-- `ir[8:6]`: SR1, the source of NOT, and baseR (rule R69). -/
def sr1Field (ir : Word) : Reg := Reg.ofBits (ir.extractLsb' 6 3)

/-- `ir[2:0]`: SR2 (rule R70). -/
def sr2Field (ir : Word) : Reg := Reg.ofBits (ir.extractLsb' 0 3)

/-- `ir[4:0]` (rule R71). -/
def imm5Field (ir : Word) : BitVec 5 := ir.extractLsb' 0 5

/-- `ir[8:0]` (rule R72). -/
def offset9Field (ir : Word) : BitVec 9 := ir.extractLsb' 0 9

/-- `ir[5:0]` (rule R73). -/
def offset6Field (ir : Word) : BitVec 6 := ir.extractLsb' 0 6

/-- `ir[10:0]` (rule R74). -/
def offset11Field (ir : Word) : BitVec 11 := ir.extractLsb' 0 11

/-- n = `ir[11]` of BR (rule R75). -/
def nFlag (ir : Word) : Bool := ir.getLsbD 11

/-- z = `ir[10]` of BR (rule R75). -/
def zFlag (ir : Word) : Bool := ir.getLsbD 10

/-- p = `ir[9]` of BR (rule R75). -/
def pFlag (ir : Word) : Bool := ir.getLsbD 9

/-- `ir[11]` of opcode 0x4: 1 selects JSR, 0 selects JSRR (rule R76). -/
def jsrModeFlag (ir : Word) : Bool := ir.getLsbD 11

/-- `ir[7:0]`: trapvect8, unsigned (rule R77). -/
def trapvect8 (ir : Word) : BitVec 8 := ir.extractLsb' 0 8

/-- The dispatcher's fixed six-entry table, any other vector last (rules R81, R140). -/
def decodeTrap (v : BitVec 8) : Instr :=
  if v = 0x20 then .trapGetc
  else if v = 0x21 then .trapOut
  else if v = 0x22 then .trapPuts
  else if v = 0x23 then .trapIn
  else if v = 0x24 then .trapPutsp
  else if v = 0x25 then .trapHalt
  else .trapBadvec v

/-- The decoder: a total function over the 16 opcode values (rules R80, R81, R92). -/
def decode (ir : Word) : Instr :=
  match opcodeOf ir with
  | .br => .br (nFlag ir) (zFlag ir) (pFlag ir) (offset9Field ir)
  | .add =>
    if immediateFlag ir then .addImm (drField ir) (sr1Field ir) (imm5Field ir)
    else .addReg (drField ir) (sr1Field ir) (sr2Field ir)
  | .ld => .ld (drField ir) (offset9Field ir)
  | .st => .st (drField ir) (offset9Field ir)
  | .jsr => if jsrModeFlag ir then .jsr (offset11Field ir) else .jsrr (sr1Field ir)
  | .and =>
    if immediateFlag ir then .andImm (drField ir) (sr1Field ir) (imm5Field ir)
    else .andReg (drField ir) (sr1Field ir) (sr2Field ir)
  | .ldr => .ldr (drField ir) (sr1Field ir) (offset6Field ir)
  | .str => .str (drField ir) (sr1Field ir) (offset6Field ir)
  | .rti => .rti
  | .not => .notReg (drField ir) (sr1Field ir)
  | .ldi => .ldi (drField ir) (offset9Field ir)
  | .sti => .sti (drField ir) (offset9Field ir)
  | .jmp => .jmp (sr1Field ir)
  | .res => .res
  | .lea => .lea (drField ir) (offset9Field ir)
  | .trap => decodeTrap (trapvect8 ir)

/-- The instruction of a table word of nbits bits. Every instruction is one 16-bit word (rule R65),
so a longer word is no instruction. -/
def decodeTableWord (nbits w : Nat) : Option Instr :=
  if nbits ≤ 16 then some (decode (BitVec.ofNat 16 (w % 2 ^ nbits))) else none

/-- The encoder (rules R79, R86): each field at its position, ignored bits 0, but NOT's bits 5..0
written as 111111. -/
def encode : Instr → Word
  | .addReg d a b => 0b0001#4 ++ d.bits ++ a.bits ++ 0b000#3 ++ b.bits
  | .addImm d a i => 0b0001#4 ++ d.bits ++ a.bits ++ 0b1#1 ++ i
  | .andReg d a b => 0b0101#4 ++ d.bits ++ a.bits ++ 0b000#3 ++ b.bits
  | .andImm d a i => 0b0101#4 ++ d.bits ++ a.bits ++ 0b1#1 ++ i
  | .notReg d a => 0b1001#4 ++ d.bits ++ a.bits ++ 0b111111#6
  | .br n z p o => 0b0000#4 ++ BitVec.ofBool n ++ BitVec.ofBool z ++ BitVec.ofBool p ++ o
  | .jmp a => 0b1100#4 ++ 0b000#3 ++ a.bits ++ 0b000000#6
  | .jsr o => 0b01001#5 ++ o
  | .jsrr a => 0b01000#5 ++ 0b00#2 ++ a.bits ++ 0b000000#6
  | .ld d o => 0b0010#4 ++ d.bits ++ o
  | .ldi d o => 0b1010#4 ++ d.bits ++ o
  | .ldr d a o => 0b0110#4 ++ d.bits ++ a.bits ++ o
  | .lea d o => 0b1110#4 ++ d.bits ++ o
  | .st r o => 0b0011#4 ++ r.bits ++ o
  | .sti r o => 0b1011#4 ++ r.bits ++ o
  | .str r a o => 0b0111#4 ++ r.bits ++ a.bits ++ o
  | .rti => 0b1000#4 ++ 0x000#12
  | .res => 0b1101#4 ++ 0x000#12
  | .trapGetc => 0b1111#4 ++ 0b0000#4 ++ 0x20#8
  | .trapOut => 0b1111#4 ++ 0b0000#4 ++ 0x21#8
  | .trapPuts => 0b1111#4 ++ 0b0000#4 ++ 0x22#8
  | .trapIn => 0b1111#4 ++ 0b0000#4 ++ 0x23#8
  | .trapPutsp => 0b1111#4 ++ 0b0000#4 ++ 0x24#8
  | .trapHalt => 0b1111#4 ++ 0b0000#4 ++ 0x25#8
  | .trapBadvec v => 0b1111#4 ++ 0b0000#4 ++ v

/-- A row of the opcode table as a mask and the value the masked word has (rules R79, R81). -/
structure Row where
  mask : Word
  value : Word
deriving DecidableEq, Repr

/-- The row of spec/opcode_table.json that the instruction belongs to. -/
def Instr.row : Instr → Row
  | .addReg _ _ _ => ⟨0xF020, 0x1000⟩
  | .addImm _ _ _ => ⟨0xF020, 0x1020⟩
  | .andReg _ _ _ => ⟨0xF020, 0x5000⟩
  | .andImm _ _ _ => ⟨0xF020, 0x5020⟩
  | .notReg _ _ => ⟨0xF000, 0x9000⟩
  | .br _ _ _ _ => ⟨0xF000, 0x0000⟩
  | .jmp _ => ⟨0xF000, 0xC000⟩
  | .jsr _ => ⟨0xF800, 0x4800⟩
  | .jsrr _ => ⟨0xF800, 0x4000⟩
  | .ld _ _ => ⟨0xF000, 0x2000⟩
  | .ldi _ _ => ⟨0xF000, 0xA000⟩
  | .ldr _ _ _ => ⟨0xF000, 0x6000⟩
  | .lea _ _ => ⟨0xF000, 0xE000⟩
  | .st _ _ => ⟨0xF000, 0x3000⟩
  | .sti _ _ => ⟨0xF000, 0xB000⟩
  | .str _ _ _ => ⟨0xF000, 0x7000⟩
  | .rti => ⟨0xF000, 0x8000⟩
  | .res => ⟨0xF000, 0xD000⟩
  | .trapGetc => ⟨0xF0FF, 0xF020⟩
  | .trapOut => ⟨0xF0FF, 0xF021⟩
  | .trapPuts => ⟨0xF0FF, 0xF022⟩
  | .trapIn => ⟨0xF0FF, 0xF023⟩
  | .trapPutsp => ⟨0xF0FF, 0xF024⟩
  | .trapHalt => ⟨0xF0FF, 0xF025⟩
  | .trapBadvec _ => ⟨0xF000, 0xF000⟩

/-- The bits of the instruction's word that no field names (rules R70, R76 to R79). -/
def Instr.ignoredBits : Instr → Word
  | .addReg _ _ _ | .andReg _ _ _ => 0x0018
  | .notReg _ _ => 0x003F
  | .jmp _ => 0x0E3F
  | .jsrr _ => 0x063F
  | .rti | .res => 0x0FFF
  | .trapGetc | .trapOut | .trapPuts | .trapIn | .trapPutsp | .trapHalt | .trapBadvec _ => 0x0F00
  | .addImm _ _ _ | .andImm _ _ _ | .br _ _ _ _ | .jsr _ => 0x0000
  | .ld _ _ | .ldi _ _ | .ldr _ _ _ | .lea _ _ | .st _ _ | .sti _ _ | .str _ _ _ => 0x0000

/-- What the canonical word has in its ignored bits: NOT's are ones, all others zero (rule R86). -/
def Instr.canonicalFill : Instr → Word
  | .notReg _ _ => 0x003F
  | .addReg _ _ _ | .addImm _ _ _ | .andReg _ _ _ | .andImm _ _ _ => 0x0000
  | .br _ _ _ _ | .jmp _ | .jsr _ | .jsrr _ => 0x0000
  | .ld _ _ | .ldi _ _ | .ldr _ _ _ | .lea _ _ | .st _ _ | .sti _ _ | .str _ _ _ => 0x0000
  | .rti | .res => 0x0000
  | .trapGetc | .trapOut | .trapPuts | .trapIn | .trapPutsp | .trapHalt | .trapBadvec _ => 0x0000

end Sys2Proof
end

