-- ==== Sys2Proof/Config.lean ====
section
/-! DEFINITION. Config.lean: the open parameters of the spec (rule R6) and the free values.

The six parameters of R6 are "arguments" of the model. `step` has a fixed type, so a State carries
its `Params` as plain data that no step changes: a statement about every state is thereby a
statement about every choice of the parameters (notes/assumptions/2.md). -/

namespace Sys2Proof

/-- The parameter `COND_RESET` of rules R6, R36: Z or NONE (decision D5, conflict C3). -/
inductive CondReset where
  | zero
  | noFlag
deriving DecidableEq, Repr

/-- The open parameters of rule R6. -/
structure Params where
  /-- `PC_RESET` (D6); read by machine creation only. -/
  pcReset : Word
  /-- `COND_RESET` (D5); read by machine creation only. -/
  condReset : CondReset
  /-- `TRAP_LINKS_R7` (D13, rule R141). -/
  trapLinksR7 : Bool
  /-- `TRAP_READS_MAPPED` (D12, rules R49, R150). -/
  trapReadsMapped : Bool
  /-- `IN_PROMPT` (D14, rule R145). -/
  inPrompt : List Byte
  /-- `HALT_NOTICE` (D15, rule R147). -/
  haltNotice : List Byte
deriving DecidableEq, Repr

/-- The recommended values of 92_eei_decisions.md. Its "any" for the two texts is filled with the
single letters P and H that its examples write for them (DESIGN CHOICE, unsafe for a claim about
these two texts made from `State.reset` alone: notes/assumptions/3.md). -/
def Params.recommended : Params where
  pcReset := 0x3000
  condReset := .zero
  trapLinksR7 := false
  trapReadsMapped := false
  inPrompt := [0x50]
  haltNotice := [0x48]

/-- Free value: the n-th unscheduled answer of `poll_has_input`, a draw by rule R54 (D29). No body:
nothing can be proved of its values (notes/assumptions/5.md). -/
opaque Config.freePollAnswer : Nat → Bool

/-- Free value: the n-th byte of an input stream of which the state lists no more bytes and no end
(rule R33: the stream may be infinite; notes/assumptions/5.md). -/
opaque Config.freeInputByte : Nat → Byte

/-- Free value: how many of the bytes a PUTS or PUTSP step would have written stand in the output
when the step ends in Fault(UnterminatedString) (rule R172, decision D18; notes/assumptions/6.md). -/
opaque Config.freeOutputLength : Nat → Nat

end Sys2Proof
end

