-- ==== Sys2Proof/Machine/State.lean ====
section
/-! DEFINITION. Machine/State.lean: component 3 of the CORE, the machine state (10_state.md), as plain
data; the outcomes that end a step; the state after reset (rules R36 to R38, R190). -/

namespace Sys2Proof.Machine

/-- The condition register's value (rules R25, R28). `noFlag` is the reset value NONE that rule R36
admits under COND_RESET = NONE. -/
inductive Cond where
  | negative
  | zero
  | positive
  | noFlag
deriving DecidableEq, Repr

/-- The two reserved opcodes (rules R160, R161). -/
inductive ReservedOpcode where
  | rti
  | res
deriving DecidableEq, Repr

/-- The reason a FAULT outcome carries (rule R171). -/
inductive FaultReason where
  | reservedOpcode (op : ReservedOpcode)
  | unknownTrapVector (vec : BitVec 8)
  | endOfInput
  | unterminatedString
deriving DecidableEq, Repr

/-- The run state (rule R34). -/
inductive RunState where
  | running
  | halted
  | faulted (reason : FaultReason)
deriving DecidableEq, Repr

/-- What the console's input stream holds after the bytes the state lists (rules R33, R54):
its end, silence for ever, or further bytes nothing is known of (`Config.freeInputByte`). -/
inductive InputTail where
  | endOfInput
  | neverSupplied
  | unknown
deriving DecidableEq, Repr

/-- One call of the console interface, with its answer (rules R12, R97). -/
inductive ConsoleEvent where
  /-- `poll_has_input()` answered so. -/
  | poll (ready : Bool)
  /-- `read_char_blocking()` returned this byte. -/
  | read (b : Byte)
  /-- `read_char_blocking()` returned EOF. -/
  | readEof
  /-- `write_byte(b)`. -/
  | write (b : Byte)
  | flush
deriving DecidableEq, Repr

/-- The console device as the CORE sees it (rule R33). -/
structure Console where
  /-- The next bytes of the input stream, first to be read first. -/
  input : List Byte
  /-- What follows those bytes. -/
  tail : InputTail
  /-- The next draws of `poll_has_input`; after them the draws are `Config.freePollAnswer`. -/
  polls : List Bool
  /-- The MODEL's own field: how many free values have been drawn (notes/assumptions/5.md). -/
  draws : Nat
  /-- Every console call so far, oldest first (rule R97). -/
  events : List ConsoleEvent
deriving DecidableEq, Repr

/-- The register file R0 to R7 (rule R20). -/
structure Regs where
  r0 : Word
  r1 : Word
  r2 : Word
  r3 : Word
  r4 : Word
  r5 : Word
  r6 : Word
  r7 : Word
deriving DecidableEq, Repr

/-- One listed cell of memory: its Word address and its Word. A cell is the smallest unit any access
moves (rule R42; notes/assumptions/1.md). -/
abbrev Cell := Nat × Word

/-- The memory array M (rule R29): the cells that do not hold 0x0000, by rising address. KBSR and
KBDR are cells of it (rule R30). -/
structure Memory where
  cells : List Cell
deriving DecidableEq, Repr

/-- The machine state: the closed register set of rules R20, R23, R25, R35, the memory, the run state
and the console (rules R33, R34), with the open parameters of rule R6 that this machine has. -/
structure State where
  params : Params
  regs : Regs
  pc : Word
  cond : Cond
  mem : Memory
  runState : RunState
  console : Console
deriving DecidableEq, Repr

/-- Why no next state exists. A FAULT outcome of the spec is none of these: it is a next state whose
run state is FAULTED(reason) (rules R172, R173). -/
inductive Fault where
  /-- Raised by `step` in run state HALTED, where no step exists (rule R90). Safe. -/
  | halted
  /-- Raised by `step` in run state FAULTED(reason), where no step exists (rule R90). Safe. -/
  | faulted (reason : FaultReason)
  /-- Raised by TRAP GETC and TRAP IN where the host never supplies another byte and never ends the
  stream: the call does not return, the step does not complete, the machine is stuck
  (rules R54, R182). Safe. -/
  | readNeverReturns
deriving DecidableEq, Repr

/-- An instruction without a meaning. Every instruction of this model has one. -/
inductive Refusal where
  /-- For an arm of `exec` that has no meaning yet; raised by none. Safe. -/
  | notModelled (mnemonic : String)
deriving DecidableEq, Repr

/-- The result of a step or of a meaning. -/
abbrev StepResult := Host.Outcome State Fault Refusal

/-- Registers as creation leaves them: "all registers and memory zeroed" (rules R36, R190). -/
def Regs.zeroed : Regs := ⟨0, 0, 0, 0, 0, 0, 0, 0⟩

/-- Memory as creation leaves it: every cell 0x0000, so none is listed (rules R37, R190). -/
def Memory.zeroed : Memory := ⟨[]⟩

/-- COND as creation leaves it (rule R36). -/
def initialCond : CondReset → Cond
  | .zero => .zero
  | .noFlag => .noFlag

/-- Machine creation for any open parameters and any console (rules R36 to R38, R190). It calls
nothing on the console. -/
def State.create (p : Params) (c : Console) : State where
  params := p
  regs := Regs.zeroed
  pc := p.pcReset
  cond := initialCond p.condReset
  mem := Memory.zeroed
  runState := .running
  console := c

/-- A console no call was made on and whose input and polls are not known: "the input stream and the
output stream are the host's" (rule R38; DESIGN CHOICE, notes/assumptions/4.md). -/
def Console.hosts : Console where
  input := []
  tail := .unknown
  polls := []
  draws := 0
  events := []

/-- The machine right after reset, with the recommended parameters (rule R190). -/
def State.reset : State := State.create Params.recommended Console.hosts

end Sys2Proof.Machine
end

