-- ==== Sys2Proof/Machine/Ops.lean ====
section
/-! DEFINITION. Machine/Ops.lean: the named operations over registers, memory and the console
(10_state.md, 20_memory.md), the fetch (rule R91), and the ends of a step: the FAULT and HALT
outcomes and the trap entry (rules R95, R141, R172). -/

namespace Sys2Proof.Machine

/-! ### Registers -/

/-- Read one register of the file (rule R20). -/
def Regs.read (g : Regs) : Reg → Word
  | .r0 => g.r0 | .r1 => g.r1 | .r2 => g.r2 | .r3 => g.r3
  | .r4 => g.r4 | .r5 => g.r5 | .r6 => g.r6 | .r7 => g.r7

/-- Write one register of the file; none is hardwired (rule R20). -/
def Regs.write (g : Regs) (r : Reg) (v : Word) : Regs :=
  match r with
  | .r0 => { g with r0 := v } | .r1 => { g with r1 := v }
  | .r2 => { g with r2 := v } | .r3 => { g with r3 := v }
  | .r4 => { g with r4 := v } | .r5 => { g with r5 := v }
  | .r6 => { g with r6 := v } | .r7 => { g with r7 := v }

/-- `x[i]` (rule R10). -/
def State.readReg (s : State) (r : Reg) : Word := s.regs.read r

/-- `x[i] <- v` (rule R10). -/
def State.writeReg (s : State) (r : Reg) (v : Word) : State := { s with regs := s.regs.write r v }

/-- `pc <- target` (rule R10). -/
def State.setPc (s : State) (v : Word) : State := { s with pc := v }

/-- `cond <- f` (rule R10). -/
def State.setCond (s : State) (f : Cond) : State := { s with cond := f }

/-- Put a memory in place of the state's. -/
def State.setMem (s : State) (m : Memory) : State := { s with mem := m }

/-- Put a console in place of the state's. -/
def State.setConsole (s : State) (c : Console) : State := { s with console := c }

/-- Put a run state in place of the state's (rule R34). -/
def State.setRunState (s : State) (r : RunState) : State := { s with runState := r }

/-! ### The memory array -/

/-- What a cell holds that nothing has written: the reset contents (rule R37). -/
def unlistedWord : Word := 0

/-- The number of cells (rule R29). -/
def memorySize : Nat := 65536

/-- The cell at an address, in a list of cells. -/
def lookupCell : List Cell → Nat → Word
  | [], _ => unlistedWord
  | (k, v) :: rest, a => if a = k then v else lookupCell rest a

/-- Write a cell in a rising list of cells; the reset contents are not listed. -/
def storeCell : List Cell → Nat → Word → List Cell
  | [], a, v => if v = unlistedWord then [] else [(a, v)]
  | (k, w) :: rest, a, v =>
    if a < k then
      if v = unlistedWord then (k, w) :: rest else (a, v) :: (k, w) :: rest
    else if a = k then
      if v = unlistedWord then rest else (a, v) :: rest
    else (k, w) :: storeCell rest a v

/-- `M[a]` (rules R11, R29). -/
def Memory.read (m : Memory) (a : Word) : Word := lookupCell m.cells a.toNat

/-- `M[a] <- v` (rules R11, R48). -/
def Memory.write (m : Memory) (a v : Word) : Memory := ⟨storeCell m.cells a.toNat v⟩

/-- The canonical form of a list of cells: addresses inside the array and strictly rising, no cell
equal to what an unlisted address reads as. -/
def canonicalCells : List Cell → Bool
  | [] => true
  | (k, v) :: rest =>
    decide (k < memorySize) && decide (v ≠ unlistedWord) &&
      rest.all (fun c => decide (k < c.1)) && canonicalCells rest

/-- The memory is in canonical form. -/
def Memory.wf (m : Memory) : Bool := canonicalCells m.cells

/-! ### The console (rules R12, R54) -/

/-- Append a call to the console's record (rule R97). -/
def Console.log (c : Console) (e : ConsoleEvent) : Console := { c with events := c.events ++ [e] }

/-- The byte an event wrote, if it is a write. -/
def ConsoleEvent.written? : ConsoleEvent → Option Byte
  | .write b => some b
  | .poll _ | .read _ | .readEof | .flush => none

/-- The output stream: "the ordered sequence of bytes passed to `write_byte`" (rule R33). -/
def Console.output (c : Console) : List Byte := c.events.filterMap ConsoleEvent.written?

/-- Some further byte of the input stream will be supplied. -/
def Console.hasInput (c : Console) : Bool :=
  match c.input, c.tail with
  | _ :: _, _ => true
  | [], .unknown => true
  | [], .endOfInput | [], .neverSupplied => false

/-- Take the next byte of the input stream, if the host supplies one (rules R33, R54). -/
def Console.takeByte (c : Console) : Option (Byte × Console) :=
  match c.input, c.tail with
  | b :: rest, _ => some (b, { c with input := rest }.log (.read b))
  | [], .unknown =>
    let b := Config.freeInputByte c.draws
    some (b, { c with draws := c.draws + 1 }.log (.read b))
  | [], .endOfInput | [], .neverSupplied => none

/-- The next draw of `poll_has_input`, before rule R54's constraint. -/
def Console.pollDraw (c : Console) : Bool × Console :=
  match c.polls with
  | d :: rest => (d, { c with polls := rest })
  | [] => (Config.freePollAnswer c.draws, { c with draws := c.draws + 1 })

/-- `poll_has_input()`: a draw that may be true only where the next blocking read returns a byte at
once; false at end of input (rule R54, decisions D10, D29). -/
def Console.pollHasInput (c : Console) : Bool × Console :=
  let ready := c.pollDraw.1 && c.hasInput
  (ready, c.pollDraw.2.log (.poll ready))

/-- What `read_char_blocking()` does: a byte, EOF, or no return at all (rule R54). -/
inductive ReadAnswer where
  | byte (b : Byte)
  | endOfInput
  | never
deriving DecidableEq, Repr

/-- `read_char_blocking()` (rules R12, R54). -/
def Console.readCharBlocking (c : Console) : ReadAnswer × Console :=
  match c.takeByte with
  | some (b, c') => (.byte b, c')
  | none =>
    match c.tail with
    | .endOfInput => (.endOfInput, c.log .readEof)
    | .neverSupplied | .unknown => (.never, c)

/-- `write_byte(b)` (rules R12, R54). -/
def State.writeByte (s : State) (b : Byte) : State := s.setConsole (s.console.log (.write b))

/-- `for c in text: write_byte(c)` (rules R145, R147). -/
def State.writeBytes (s : State) : List Byte → State
  | [] => s
  | b :: rest => (s.writeByte b).writeBytes rest

/-- `flush`: a call that changes neither the order nor the content of the output (rule R54). -/
def State.flush (s : State) : State := s.setConsole (s.console.log .flush)

/-! ### Memory access of the machine (rules R46 to R49) -/

/-- KBSR, the keyboard status register's address (rules R30, R52). -/
def kbsrAddr : Word := 0xFE00

/-- KBDR, the keyboard data register's address (rules R30, R52). -/
def kbdrAddr : Word := 0xFE02

/-- KBSR after a poll that found input: READY, bit 15 (rule R31, decision D8). -/
def kbsrReady : Word := 0x8000

/-- The poll a mapped read of KBSR performs, and the KBSR/KBDR pair it leaves (rule R46). -/
def pollKeyboard (s : State) : State :=
  let p := s.console.pollHasInput
  match (if p.1 then p.2.takeByte else none) with
  | some (b, c) =>
    (s.setConsole c).setMem ((s.mem.write kbsrAddr kbsrReady).write kbdrAddr (zextByte b))
  | none => (s.setConsole p.2).setMem (s.mem.write kbsrAddr 0)

/-- `RawRead(a, 1)`: no side effect at any address (rule R47). -/
def rawRead (a : Word) (s : State) : Word × State := (s.mem.read a, s)

/-- `MemRead(a, 1)`: the mapped read (rule R46). -/
def memRead (a : Word) (s : State) : Word × State :=
  if a = kbsrAddr then rawRead a (pollKeyboard s) else rawRead a s

/-- `MemWrite(a, 1, v)`: a plain write at every address (rule R48). -/
def memWrite (a v : Word) (s : State) : State := s.setMem (s.mem.write a v)

/-- The read of a string cell by PUTS and PUTSP (rules R49, R150, parameter TRAP_READS_MAPPED). -/
def stringRead (a : Word) (s : State) : Word × State :=
  if s.params.trapReadsMapped then memRead a s else rawRead a s

/-- The fetch: the mapped read at PC, then PC advanced by 1 modulo 2^16 (rules R24, R91). -/
def fetch (s : State) : Word × State :=
  let r := memRead s.pc s
  (r.1, r.2.setPc (s.pc + 1))

/-! ### The ends of a step (rules R13, R95) -/

/-- `raise Fault(reason)`: the FAULT outcome. The state is kept as it is where the fault is raised,
PC already advanced by the fetch, and the run state becomes FAULTED(reason); nothing is saved and no
handler runs (rules R34, R95, R172, R173). -/
def raiseFault (r : FaultReason) (s : State) : StepResult := .next (s.setRunState (.faulted r))

/-- `halt`: the HALT outcome; the run state becomes HALTED (rules R34, R95, R147). -/
def haltMachine (s : State) : StepResult := .next (s.setRunState .halted)

/-- Trap entry: TRAP saves PC in R7 under TRAP_LINKS_R7 and nothing otherwise; it changes no mode and
loads no handler address (rules R140, R141, R175). The return is implicit, PC being already past the
TRAP (rule R176), so no operation undoes this one. -/
def trapEntry (s : State) : State :=
  if s.params.trapLinksR7 then s.writeReg .r7 s.pc else s

/-- A blocking read, and what the trap does with the byte. End of input is a fault (rules R142,
R145); a read that never returns leaves the machine stuck (rules R54, R182). -/
def readThen (s : State) (k : Byte → State → StepResult) : StepResult :=
  match s.console.readCharBlocking with
  | (.byte b, c) => k b (s.setConsole c)
  | (.endOfInput, c) => raiseFault .endOfInput (s.setConsole c)
  | (.never, _) => .fault .readNeverReturns

/-! ### Strings in memory (rules R144, R146) -/

/-- One scan over at most `fuel` cells from `a`: write `chars w` for each cell w until a zero cell.
The Bool says whether a zero cell was met. -/
def scanString (chars : Word → List Byte) : Nat → Word → State → Bool × State
  | 0, _, s => (false, s)
  | fuel + 1, a, s =>
    let r := stringRead a s
    if r.1 = 0 then (true, r.2)
    else scanString chars fuel (a + 1) (r.2.writeBytes (chars r.1))

/-- Keep the first n writes of a list of console calls, and every call that is no write. -/
def keepWrites : Nat → List ConsoleEvent → List ConsoleEvent
  | _, [] => []
  | 0, .write _ :: rest => keepWrites 0 rest
  | n + 1, .write b :: rest => .write b :: keepWrites n rest
  | n, .poll a :: rest => .poll a :: keepWrites n rest
  | n, .read b :: rest => .read b :: keepWrites n rest
  | n, .readEof :: rest => .readEof :: keepWrites n rest
  | n, .flush :: rest => .flush :: keepWrites n rest

/-- The output of a step that faults in a string is left open by the spec: any prefix of the bytes it
would have written (rule R172). The prefix's length is a free value. `before` is the number of calls
made before the scan. -/
def truncateOutput (before : Nat) (s : State) : State :=
  let c := s.console
  s.setConsole { c with
    draws := c.draws + 1
    events := c.events.take before ++
      keepWrites (Config.freeOutputLength c.draws) (c.events.drop before) }

/-- PUTS and PUTSP: scan from R0; flush at the zero cell, and Fault(UnterminatedString) after 65536
cells without one (rules R144, R146, decision D18). -/
def putString (chars : Word → List Byte) (s : State) : StepResult :=
  let r := scanString chars memorySize (s.readReg .r0) s
  if r.1 then .next r.2.flush
  else raiseFault .unterminatedString (truncateOutput s.console.events.length r.2)

end Sys2Proof.Machine
end

