-- ==== Sys2Proof/Machine/Flags.lean ====
section
/-! DEFINITION. Machine/Flags.lean: the condition code, its update and its test (rules R25 to R28, R94,
R110). -/

namespace Sys2Proof.Machine

/-- The flag of a value: N if bit 15 is 1, else Z if it is 0, else P (rule R94). -/
def condOf (v : Word) : Cond :=
  if v.msb then .negative else if v = 0 then .zero else .positive

/-- `setcc(v)` (rules R10, R94). -/
def State.setcc (s : State) (v : Word) : State := s.setCond (condOf v)

/-- COND as a set of flags in n, z, p order (rule R28). -/
def Cond.nzp : Cond → BitVec 3
  | .negative => 0b100
  | .zero => 0b010
  | .positive => 0b001
  | .noFlag => 0b000

/-- The condition of BR (rule R110). -/
def branchTaken (n z p : Bool) (c : Cond) : Bool :=
  (n && c = .negative) || (z && c = .zero) || (p && c = .positive)

/-- Write the destination register and set the condition code from the value written (rules R26,
R94). -/
def writeResult (dr : Reg) (v : Word) (s : State) : State := (s.writeReg dr v).setcc v

end Sys2Proof.Machine
end

