-- ==== Sys2Proof/Machine/Operands.lean ====
section
/-! DEFINITION. Machine/Operands.lean: the operand forms: extended fields (rules R71 to R74) and the
addressing modes (rule R127). PC in a state handed to an instruction is already advanced (R23). -/

namespace Sys2Proof.Machine

/-- `sext_16(v, N)`: the value of an N-bit two's-complement field as a Word (rules R9, R63). -/
def sext {n : Nat} (v : BitVec n) : Word := v.signExtend 16

/-- PC-relative: `pc + offset`, modulo 2^16 (rules R41, R110, R112, R127). -/
def pcRelative {n : Nat} (off : BitVec n) (s : State) : Word := s.pc + sext off

/-- Base + offset: `x[baseR] + offset6`, modulo 2^16 (rules R41, R127). -/
def basePlusOffset (base : Reg) (off6 : BitVec 6) (s : State) : Word := s.readReg base + sext off6

/-- Indirect: the pointer read at `pc + offset9`, a mapped read, with the state it leaves
(rules R49, R127). -/
def indirect (off9 : BitVec 9) (s : State) : Word × State := memRead (pcRelative off9 s) s

/-- The bytes PUTS writes for a cell: its low 8 bits (rule R144, decision D17). -/
def putsChars (w : Word) : List Byte := [lowByte w]

/-- The bytes PUTSP writes for a cell: the low byte always, then the high byte if it is not zero
(rule R146). -/
def putspChars (w : Word) : List Byte :=
  if highByte w = 0 then [lowByte w] else [lowByte w, highByte w]

end Sys2Proof.Machine
end

