-- ==== Sys2Proof/Machine/Control.lean ====
section
/-! DEFINITION. Machine/Control.lean: BR, JMP, JSR, JSRR (42_control.md). None writes COND. -/

namespace Sys2Proof.Machine

/-- BR (rule R110). -/
def execBr (n z p : Bool) (off9 : BitVec 9) (s : State) : StepResult :=
  .next (if branchTaken n z p s.cond then s.setPc (pcRelative off9 s) else s)

/-- JMP (rule R111). -/
def execJmp (base : Reg) (s : State) : StepResult := .next (s.setPc (s.readReg base))

/-- Save the return address: `x[7] <- pc` (rules R22, R112, R113). -/
def saveReturn (s : State) : State := s.writeReg .r7 s.pc

/-- JSR (rule R112). -/
def execJsr (off11 : BitVec 11) (s : State) : StepResult :=
  .next ((saveReturn s).setPc (pcRelative off11 s))

/-- JSRR: the base register is read after R7 is written (rules R93, R113). -/
def execJsrr (base : Reg) (s : State) : StepResult :=
  .next ((saveReturn s).setPc ((saveReturn s).readReg base))

end Sys2Proof.Machine
end

