-- ==== Sys2Proof/Machine/LoadStore.lean ====
section
/-! DEFINITION. Machine/LoadStore.lean: LD, LDI, LDR, LEA, ST, STI, STR (43_load_store.md). -/

namespace Sys2Proof.Machine

/-- The shared end of the loads: the mapped data read, the destination and the flag. -/
def loadFrom (dr : Reg) (ea : Word) (s : State) : StepResult :=
  let r := memRead ea s
  .next (writeResult dr r.1 r.2)

/-- LD (rule R120). -/
def execLd (dr : Reg) (off9 : BitVec 9) (s : State) : StepResult :=
  loadFrom dr (pcRelative off9 s) s

/-- LDI (rule R121). -/
def execLdi (dr : Reg) (off9 : BitVec 9) (s : State) : StepResult :=
  let p := indirect off9 s
  loadFrom dr p.1 p.2

/-- LDR (rule R122). -/
def execLdr (dr base : Reg) (off6 : BitVec 6) (s : State) : StepResult :=
  loadFrom dr (basePlusOffset base off6 s) s

/-- LEA: the address, no memory access (rule R123). -/
def execLea (dr : Reg) (off9 : BitVec 9) (s : State) : StepResult :=
  .next (writeResult dr (pcRelative off9 s) s)

/-- ST (rule R124). -/
def execSt (sr : Reg) (off9 : BitVec 9) (s : State) : StepResult :=
  .next (memWrite (pcRelative off9 s) (s.readReg sr) s)

/-- STI (rule R125). -/
def execSti (sr : Reg) (off9 : BitVec 9) (s : State) : StepResult :=
  let p := indirect off9 s
  .next (memWrite p.1 (p.2.readReg sr) p.2)

/-- STR (rule R126). -/
def execStr (sr base : Reg) (off6 : BitVec 6) (s : State) : StepResult :=
  .next (memWrite (basePlusOffset base off6 s) (s.readReg sr) s)

end Sys2Proof.Machine
end

