-- ==== Sys2Proof/Machine/Operate.lean ====
section
/-! DEFINITION. Machine/Operate.lean: ADD, AND, NOT (41_operate.md). -/

namespace Sys2Proof.Machine

/-- ADD, register form (rule R100). -/
def execAddReg (dr sr1 sr2 : Reg) (s : State) : StepResult :=
  .next (writeResult dr (s.readReg sr1 + s.readReg sr2) s)

/-- ADD, immediate form (rule R101). -/
def execAddImm (dr sr1 : Reg) (imm5 : BitVec 5) (s : State) : StepResult :=
  .next (writeResult dr (s.readReg sr1 + sext imm5) s)

/-- AND, register form (rule R102). -/
def execAndReg (dr sr1 sr2 : Reg) (s : State) : StepResult :=
  .next (writeResult dr (s.readReg sr1 &&& s.readReg sr2) s)

/-- AND, immediate form (rule R103). -/
def execAndImm (dr sr1 : Reg) (imm5 : BitVec 5) (s : State) : StepResult :=
  .next (writeResult dr (s.readReg sr1 &&& sext imm5) s)

/-- NOT (rule R104). -/
def execNotReg (dr sr : Reg) (s : State) : StepResult :=
  .next (writeResult dr (~~~ s.readReg sr) s)

end Sys2Proof.Machine
end

