-- ==== Sys2Proof/Machine/Reserved.lean ====
section
/-! DEFINITION. Machine/Reserved.lean: RTI and RES, unconditionally fatal (45_reserved.md). -/

namespace Sys2Proof.Machine

/-- RTI (rule R160). -/
def execRti (s : State) : StepResult := raiseFault (.reservedOpcode .rti) s

/-- RES (rule R161). -/
def execRes (s : State) : StepResult := raiseFault (.reservedOpcode .res) s

end Sys2Proof.Machine
end

