-- ==== Sys2Proof/Machine/Trap.lean ====
section
/-! DEFINITION. Machine/Trap.lean: component 5 of the CORE, TRAP and its vectors (44_trap.md). Every
vector runs after the trap entry (rules R140, R141). -/

namespace Sys2Proof.Machine

/-- GETC, vector 0x20 (rule R142). -/
def execTrapGetc (s : State) : StepResult :=
  readThen (trapEntry s) fun b t => .next (writeResult .r0 (zextByte b) t)

/-- OUT, vector 0x21 (rule R143). -/
def execTrapOut (s : State) : StepResult :=
  .next (((trapEntry s).writeByte (lowByte (s.readReg .r0))).flush)

/-- PUTS, vector 0x22 (rule R144). -/
def execTrapPuts (s : State) : StepResult := putString putsChars (trapEntry s)

/-- IN, vector 0x23: prompt, read, echo, store (rule R145). -/
def execTrapIn (s : State) : StepResult :=
  readThen (((trapEntry s).writeBytes s.params.inPrompt).flush) fun b t =>
    .next (writeResult .r0 (zextByte b) (t.writeByte b).flush)

/-- PUTSP, vector 0x24 (rule R146). -/
def execTrapPutsp (s : State) : StepResult := putString putspChars (trapEntry s)

/-- HALT, vector 0x25 (rule R147). -/
def execTrapHalt (s : State) : StepResult :=
  haltMachine (((trapEntry s).writeBytes s.params.haltNotice).flush)

/-- Any other vector: Fault(UnknownTrapVector(v)) (rule R148). -/
def execTrapBadvec (vec : BitVec 8) (s : State) : StepResult :=
  raiseFault (.unknownTrapVector vec) (trapEntry s)

end Sys2Proof.Machine
end

