-- ==== Sys2Proof/Machine/Step.lean ====
section
/-! DEFINITION. Machine/Step.lean: component 4 of the CORE, one step (40_step.md). -/

namespace Sys2Proof.Machine

/-- One fetch-decode-execute transaction (rules R90 to R92). In HALTED and FAULTED no step exists. -/
def step (s : State) : Host.Outcome State Fault Refusal :=
  match s.runState with
  | .running => exec (decode (fetch s).1) (fetch s).2
  | .halted => .fault .halted
  | .faulted r => .fault (.faulted r)

/-- Where `withFetchWord` places its word: at PC, but the default origin where PC is KBSR's address,
since a fetch from KBSR polls and overwrites the cell (rule R91). -/
def State.fetchPlace (s : State) : Word := if s.pc = kbsrAddr then 0x3000 else s.pc

/-- The state with an instruction word in the cell the next step fetches from, able to take a step. -/
def State.withFetchWord (s : State) (nbits w : Nat) : State :=
  { s with
    pc := s.fetchPlace
    mem := s.mem.write s.fetchPlace (BitVec.ofNat 16 (w % 2 ^ nbits))
    runState := .running }

end Sys2Proof.Machine
end

