-- ==== Sys2Proof/Machine/Bits.lean ====
section
/-! DEFINITION. Machine/Bits.lean: component 1 of the CORE, the bit-field primitives (rules R60 to
R64). A call outside its preconditions is refused: the answer is `none`, never a value (rule R185,
decision D30). -/

namespace Sys2Proof.Machine

/-- `bit(w, n)`: bit n of w as the Word 0 or 1, for n in 0..15 (rule R60). -/
def bit (w : Word) (n : Nat) : Option Word :=
  if n ≤ 15 then some ((w >>> n) &&& 1) else none

/-- `setbit(w, n)`: w with bit n set, for n in 0..15 (rule R61, conflict C7). -/
def setBit (w : Word) (n : Nat) : Option Word :=
  if n ≤ 15 then some (w ||| ((1 : Word) <<< n)) else none

/-- `clearbit(w, n)`: w with bit n cleared, for n in 0..15 (rule R61, conflict C7). -/
def clearBit (w : Word) (n : Nat) : Option Word :=
  if n ≤ 15 then some (w &&& ~~~((1 : Word) <<< n)) else none

/-- `field(w, start, width)`: shift right by start, keep the low width bits; start and width in
0..15 (rule R62). -/
def field (w : Word) (start width : Nat) : Option Word :=
  if start ≤ 15 ∧ width ≤ 15 then some ((w >>> start) &&& (((1 : Word) <<< width) - 1)) else none

/-- `sign_extend(value, width)` for 1 ≤ width ≤ 15 and value < 2^width (rule R63). -/
def signExtend (value : Word) (width : Nat) : Option Word :=
  if 1 ≤ width ∧ width ≤ 15 ∧ value.toNat < 2 ^ width then
    if (value >>> (width - 1)) &&& 1 = 1 then some (value ||| ((0xFFFF : Word) <<< width))
    else some value
  else none

/-- `is_negative(w)`: bit 15 is 1 (rule R64). -/
def isNegative (w : Word) : Bool := decide (bit w 15 = some 1)

/-- `is_positive(w)`: bit 15 is 0; true of 0, and not the POSITIVE flag (rule R64). -/
def isPositive (w : Word) : Bool := decide (bit w 15 = some 0)

end Sys2Proof.Machine
end

