-- ==== Sys2Proof/Machine/Boot.lean ====
section
/-! DEFINITION. Machine/Boot.lean: the core entry contract (rules R96, R190 to R192): the object-file
image, the boot order and the run loop. -/

namespace Sys2Proof.Machine

/-- The big-endian words of a file's bytes; none for an odd length (rules R44, R191). -/
def imageWords : List Byte → Option (List Word)
  | [] => some []
  | [_] => none
  | hi :: lo :: rest => (imageWords rest).map ((hi ++ lo) :: ·)

/-- Write words into the cells from address a on, dropping those past 0xFFFF (rule R191). -/
def storeWords (m : Memory) : Nat → List Word → Memory
  | _, [] => m
  | a, w :: rest =>
    if a < memorySize then storeWords (m.write (BitVec.ofNat 16 a) w) (a + 1) rest else m

/-- Load an image: an origin word, then words written verbatim from the origin; PC stays (rules R191,
R192, decision D26). A file of odd length or without an origin is no image. -/
def loadImage (s : State) (file : List Byte) : Option State :=
  match imageWords file with
  | some (origin :: ws) => some (s.setMem (storeWords s.mem origin.toNat ws))
  | some [] | none => none

/-- Boot: create the machine, then load the images in order (rule R192). -/
def boot (p : Params) (c : Console) (files : List (List Byte)) : Option State :=
  files.foldlM loadImage (State.create p c)

/-- The run loop for at most n steps: "loop while it signals CONTINUE; on HALT or fault, stop"
(rule R96). A stopped machine stays as it is. -/
def runLoop : Nat → State → StepResult
  | 0, s => .next s
  | n + 1, s =>
    match s.runState with
    | .running =>
      match step s with
      | .next t => runLoop n t
      | .fault f => .fault f
      | .refused r => .refused r
    | .halted | .faulted _ => .next s

end Sys2Proof.Machine
end

