-- ==== Sys2Proof/Safety.lean ====
section
/-! DEFINITION. Safety.lean: what counts as a good end and a safe run, and the words the claims use for
a flag, a frame and the memory's form. -/

namespace Sys2Proof.Machine

/-- A run has ended successfully (rule R194): a step returned HALT. -/
def EndedWell (s : State) : Prop := s.runState = .halted

/-- No run from s reaches FAULTED (rules R173, R194). -/
def NeverFaults (s : State) : Prop :=
  ∀ n t r, runLoop n s = .next t → t.runState ≠ .faulted r

/-- The final observation of a run: "the registers, PC, COND, memory and the output stream"
(rule R194). -/
structure Observation where
  regs : Regs
  pc : Word
  cond : Cond
  mem : Memory
  output : List Byte
deriving DecidableEq, Repr

/-- What a run's end shows (rule R194). -/
def State.observe (s : State) : Observation := ⟨s.regs, s.pc, s.cond, s.mem, s.console.output⟩

/-- The machine invariant: memory is in canonical form. -/
abbrev State.Inv (s : State) : Prop := s.mem.wf = true

/-- COND is the flag of v: N for 0x8000 to 0xFFFF, Z for 0, P for 0x0001 to 0x7FFF (rule R94). -/
def FlagMatches (c : Cond) (v : Word) : Prop :=
  (c = .negative ↔ 0x8000 ≤ v.toNat) ∧ (c = .zero ↔ v.toNat = 0) ∧
    (c = .positive ↔ 1 ≤ v.toNat ∧ v.toNat ≤ 0x7FFF)

/-- Every register but those listed reads as before. -/
def SameRegsBut (written : List Reg) (s t : State) : Prop :=
  ∀ r, r ∉ written → t.readReg r = s.readReg r

/-- Every memory cell but those listed reads as before. -/
def SameCellsBut (written : List Word) (s t : State) : Prop :=
  ∀ a, a ∉ written → t.mem.read a = s.mem.read a

/-- PC, run state and open parameters are as before. -/
def SameControl (s t : State) : Prop :=
  t.pc = s.pc ∧ t.runState = s.runState ∧ t.params = s.params

/-- t is s after an instruction wrote v to dr and set COND from it, and did nothing else. -/
def OnlyResultWritten (dr : Reg) (v : Word) (s t : State) : Prop :=
  t.readReg dr = v ∧ FlagMatches t.cond v ∧ SameRegsBut [dr] s t ∧
    SameControl s t ∧ t.mem = s.mem ∧ t.console = s.console

/-- t is s after a load read the cell at ea by the mapped read and wrote it to dr (rules R46, R120 to
R122): nothing else changed, but for KBSR's address what the poll did. -/
def LoadedFrom (dr : Reg) (ea : Word) (s t : State) : Prop :=
  t.readReg dr = (memRead ea s).1 ∧ FlagMatches t.cond (memRead ea s).1 ∧
    SameRegsBut [dr] s t ∧ SameControl s t ∧
    (ea ≠ kbsrAddr →
      (memRead ea s).1 = s.mem.read ea ∧ t.mem = s.mem ∧ t.console = s.console) ∧
    (ea = kbsrAddr →
      t.mem = (memRead ea s).2.mem ∧ t.console = (memRead ea s).2.console)

/-- t is s after v was stored at ea, and nothing else (rules R48, R124 to R126). The value read back
needs the memory's canonical form. -/
def StoredAt (ea v : Word) (s t : State) : Prop :=
  (s.Inv → t.mem.read ea = v) ∧ SameCellsBut [ea] s t ∧ t.regs = s.regs ∧ t.cond = s.cond ∧
    SameControl s t ∧ t.console = s.console

/-- R7 after a TRAP: PC under TRAP_LINKS_R7, else as before (rule R141, decision D13). -/
def TrapLinked (s t : State) : Prop :=
  t.readReg .r7 = if s.params.trapLinksR7 then s.pc else s.readReg .r7

/-- The n cells from address a on, in the order a string read meets them (rules R41, R144). -/
def cellsFrom (m : Memory) (a : Word) (n : Nat) : List Word :=
  (List.range n).map fun k => m.read (a + BitVec.ofNat 16 k)

/-- A string of n cells starts at a: n cells that are not zero, then a zero cell (rules R144, R146). -/
def StringAt (m : Memory) (a : Word) (n : Nat) : Prop :=
  n < memorySize ∧ (∀ w ∈ cellsFrom m a n, w ≠ 0) ∧ m.read (a + BitVec.ofNat 16 n) = 0

/-- The string reads of the n + 1 cells from a poll nothing: they are raw, or none is KBSR's
(rules R47, R49). -/
def StringReadsPlain (s : State) (a : Word) (n : Nat) : Prop :=
  s.params.trapReadsMapped = false ∨ ∀ k, k ≤ n → a + BitVec.ofNat 16 k ≠ kbsrAddr

/-- The state with another record of console calls. -/
def State.withEvents (s : State) (es : List ConsoleEvent) : State :=
  s.setConsole { s.console with events := es }

/-- The console differs at most by further calls in its record. -/
def OnlyCallsAdded (s t : State) : Prop :=
  t.console = { s.console with events := t.console.events } ∧
    s.console.events <+: t.console.events

end Sys2Proof.Machine

namespace Sys2Proof

/-- A TRAP instruction. -/
def Instr.isTrap : Instr → Bool
  | .trapGetc | .trapOut | .trapPuts | .trapIn | .trapPutsp | .trapHalt | .trapBadvec _ => true
  | .addReg _ _ _ | .addImm _ _ _ | .andReg _ _ _ | .andImm _ _ _ | .notReg _ _ => false
  | .br _ _ _ _ | .jmp _ | .jsr _ | .jsrr _ => false
  | .ld _ _ | .ldi _ _ | .ldr _ _ _ | .lea _ _ | .st _ _ | .sti _ _ | .str _ _ _ => false
  | .rti | .res => false

/-- The registers rule R21 lets an instruction write, apart from R7's write by TRAP. -/
def Instr.writtenRegs : Instr → List Reg
  | .addReg d _ _ | .addImm d _ _ | .andReg d _ _ | .andImm d _ _ | .notReg d _ => [d]
  | .ld d _ | .ldi d _ | .ldr d _ _ | .lea d _ => [d]
  | .jsr _ | .jsrr _ => [.r7]
  | .trapGetc | .trapIn => [.r0]
  | .trapOut | .trapPuts | .trapPutsp | .trapHalt | .trapBadvec _ => []
  | .br _ _ _ _ | .jmp _ | .st _ _ | .sti _ _ | .str _ _ _ | .rti | .res => []

/-- The instructions that call setcc (rule R26, conflict C1). -/
def Instr.setsCond : Instr → Bool
  | .addReg _ _ _ | .addImm _ _ _ | .andReg _ _ _ | .andImm _ _ _ | .notReg _ _ => true
  | .ld _ _ | .ldi _ _ | .ldr _ _ _ | .lea _ _ => true
  | .trapGetc | .trapIn => true
  | .br _ _ _ _ | .jmp _ | .jsr _ | .jsrr _ | .st _ _ | .sti _ _ | .str _ _ _ => false
  | .trapOut | .trapPuts | .trapPutsp | .trapHalt | .trapBadvec _ => false
  | .rti | .res => false

/-- The reasons an instruction can fault for (rule R171). -/
def Instr.mayFaultFor : Instr → Machine.FaultReason → Bool
  | .rti, r => r = .reservedOpcode .rti
  | .res, r => r = .reservedOpcode .res
  | .trapBadvec v, r => r = .unknownTrapVector v
  | .trapGetc, r | .trapIn, r => r = .endOfInput
  | .trapPuts, r | .trapPutsp, r => r = .unterminatedString
  | .addReg _ _ _, _ | .addImm _ _ _, _ | .andReg _ _ _, _ | .andImm _ _ _, _ => false
  | .notReg _ _, _ | .br _ _ _ _, _ | .jmp _, _ | .jsr _, _ | .jsrr _, _ => false
  | .ld _ _, _ | .ldi _ _, _ | .ldr _ _ _, _ | .lea _ _, _ => false
  | .st _ _, _ | .sti _ _, _ | .str _ _ _, _ | .trapOut, _ | .trapHalt, _ => false

end Sys2Proof
end

