-- ==== Sys2Proof/Certificates/Slice0/Obligations.lean ====
section
/-! DEFINITION. Certificates/Slice0/Obligations.lean: the statements about the model. "D<n>" names a
decision of 92_eei_decisions.md: the spec marks it as its own choice. -/

open Sys2Proof Sys2Proof.Machine

/-! ### Component 1: the bit-field primitives (30_encoding.md section 1) -/

/-- R60: `bit` reads bit n for n in 0..15, and any other call is refused. -/
def Obligations.BitReadsTheNumberedBit : Prop :=
  ∀ (w : Word) (n : Nat),
    (n ≤ 15 → bit w n = some (if w.getLsbD n then 1 else 0)) ∧ (15 < n → bit w n = none)

/-- R61: `setbit` and `clearbit` return w with bit n set or cleared, every other bit unchanged. -/
def Obligations.SetAndClearBitChangeOneBit : Prop :=
  ∀ (w : Word) (n : Nat), n ≤ 15 →
    ∃ x y, setBit w n = some x ∧ clearBit w n = some y ∧
      bit x n = some 1 ∧ bit y n = some 0 ∧
      ∀ m, m ≤ 15 → m ≠ n → bit x m = bit w m ∧ bit y m = bit w m

/-- R62: `field` is the unsigned integer of bits [start, start + width), bits above 15 reading as 0;
a call outside its range is refused. -/
def Obligations.FieldIsShiftThenMask : Prop :=
  ∀ (w : Word) (start width : Nat),
    (start ≤ 15 ∧ width ≤ 15 →
      ∃ x, field w start width = some x ∧ x.toNat = w.toNat / 2 ^ start % 2 ^ width) ∧
    (15 < start ∨ 15 < width → field w start width = none)

/-- The primitives of 30_encoding.md section 1 (R63, R64): the low bits of a sign extension are the value
and its signed value is the field's two's-complement reading; the two sign tests read bit 15, so
`is_positive(0)` is true. The refusals and the sign test of 0 are the spec's decision D30. -/
def Obligations.SignExtendKeepsTheValueAndSignTestsReadBit15 : Prop :=
  (∀ w, (isNegative w = true ↔ 0x8000 ≤ w.toNat) ∧ (isPositive w = true ↔ w.toNat < 0x8000)) ∧
  ∀ (v : Word) (n : Nat),
    (1 ≤ n ∧ n ≤ 15 ∧ v.toNat < 2 ^ n →
      ∃ x, signExtend v n = some x ∧ x.toNat % 2 ^ n = v.toNat ∧
        x.toInt = if v.toNat < 2 ^ (n - 1) then (v.toNat : Int) else (v.toNat : Int) - 2 ^ n) ∧
    (n = 0 ∨ 2 ^ n ≤ v.toNat → signExtend v n = none)

/-- The extension the operand forms use is the primitive of rule R63 (rules R71 to R74). -/
def Obligations.OperandExtensionIsThePrimitive : Prop :=
  ∀ (n : Nat) (v : BitVec n), 1 ≤ n → n ≤ 15 → signExtend (v.setWidth 16) n = some (sext v)

/-! ### Component 2: the instruction codec (30_encoding.md sections 2 to 7) -/

/-- The decoder's accessors are the fields of 30_encoding.md section 3 (rules R66 to R77), read by the
primitives of section 1. Several positions are the spec's decision D2. -/
def Obligations.AccessorsAreTheSpecFields : Prop :=
  ∀ ir : Word,
    field ir 12 4 = some ((opcodeBits ir).setWidth 16) ∧
    bit ir 5 = some (if immediateFlag ir then 1 else 0) ∧
    field ir 9 3 = some ((drField ir).bits.setWidth 16) ∧
    field ir 6 3 = some ((sr1Field ir).bits.setWidth 16) ∧
    field ir 0 3 = some ((sr2Field ir).bits.setWidth 16) ∧
    field ir 0 5 = some ((imm5Field ir).setWidth 16) ∧
    field ir 0 9 = some ((offset9Field ir).setWidth 16) ∧
    field ir 0 6 = some ((offset6Field ir).setWidth 16) ∧
    field ir 0 11 = some ((offset11Field ir).setWidth 16) ∧
    bit ir 11 = some (if nFlag ir then 1 else 0) ∧
    bit ir 10 = some (if zFlag ir then 1 else 0) ∧
    bit ir 9 = some (if pFlag ir then 1 else 0) ∧
    bit ir 11 = some (if jsrModeFlag ir then 1 else 0) ∧
    field ir 0 8 = some ((trapvect8 ir).setWidth 16)

/-- 30_encoding.md section 5 (rule R81, which the spec marks as derived): every word decodes to exactly
one row of the opcode table; the six vector rows win over TRAP-BADVEC, and no other rows overlap. -/
def Obligations.EveryWordDecodesToItsOneRow : Prop :=
  ∀ w : Word,
    (decode w).wf = true ∧ w &&& (decode w).row.mask = (decode w).row.value ∧
    ∀ i : Instr, i.wf = true → w &&& i.row.mask = i.row.value →
      i.row = (decode w).row ∨ i.row = ⟨0xF000, 0xF000⟩

/-- "decode after encode returns the fields" (rule R86), for every well-formed instruction and every
operand value. -/
def Obligations.DecodeAfterEncodeReturnsTheInstruction : Prop :=
  ∀ i : Instr, i.wf = true → decode (encode i) = i

/-- "encode after decode returns the canonical word" (rule R86): the word itself, but its ignored bits
are 0, or 111111 for NOT. -/
def Obligations.EncodeAfterDecodeReturnsTheCanonicalWord : Prop :=
  ∀ w : Word,
    encode (decode w) = (w &&& ~~~(decode w).ignoredBits) ||| (decode w).canonicalFill

/-- Flipping any of the bits no field names changes nothing (rule R78, decision D3). -/
def Obligations.IgnoredBitsChangeNothing : Prop :=
  ∀ w x : Word, decode (w ^^^ (x &&& (decode w).ignoredBits)) = decode w

/-- Words of 95_test_vectors.md, L2-E and L1, decode to the instructions they stand for. -/
def Obligations.SampleWordsDecode : Prop :=
  decode 0x12BD = .addImm .r1 .r2 0x1D ∧ decode 0x129B = .addReg .r1 .r2 .r3 ∧
  decode 0x997F = .notReg .r4 .r5 ∧ decode 0x0FFF = .br true true true 0x1FF ∧
  decode 0x4C00 = .jsr 0x400 ∧ decode 0x41C0 = .jsrr .r7 ∧ decode 0xC1C0 = .ret ∧
  decode 0x6960 = .ldr .r4 .r5 0x20 ∧ decode 0xB802 = .sti .r4 2 ∧
  decode 0xFF25 = .trapHalt ∧ decode 0xF0FF = .trapBadvec 0xFF ∧ decode 0x8FFF = .rti

/-! ### Reset and boot (10_state.md section 6, 70_reset_and_hazards.md) -/

/-- R37 and 10_state.md section 6: machine creation, for any parameters and console. That COND and PC
follow parameters is the spec's decision D5, D6; that the console is untouched is D25. -/
def Obligations.CreationGivesTheResetValues : Prop :=
  ∀ (p : Params) (c : Console),
    (∀ r, (State.create p c).readReg r = 0) ∧ (State.create p c).pc = p.pcReset ∧
    (State.create p c).cond = (match p.condReset with | .zero => .zero | .noFlag => .noFlag) ∧
    (∀ a, (State.create p c).mem.read a = 0) ∧ (State.create p c).runState = .running ∧
    (State.create p c).console = c ∧ (State.create p c).params = p

/-- Machine creation, `State.reset` included, has its memory in canonical form. That form is the model's
own choice (log entry 1, DESIGN CHOICE), no rule of the spec; R37 gives only what the cells hold. -/
def Obligations.CreationMeetsTheInvariant : Prop :=
  (∀ (p : Params) (c : Console), (State.create p c).Inv) ∧ State.reset.Inv

/-- 70_reset_and_hazards.md section 2 (R191): an image is big-endian words, the first its origin; word k
after it goes to `M[origin + k]` for every k with origin + k ≤ 0xFFFF, the rest is dropped, and every
other cell stays. That loading leaves PC alone is decision D26. -/
def Obligations.ImageWordsLandFromTheOrigin : Prop :=
  (imageWords [] = some [] ∧ ∀ (hi lo : Byte) (rest : List Byte), imageWords (hi :: lo :: rest) =
    (imageWords rest).map (BitVec.ofNat 16 (256 * hi.toNat + lo.toNat) :: ·)) ∧
  ∀ (s : State) (file : List Byte) (origin : Word) (ws : List Word), s.Inv →
    imageWords file = some (origin :: ws) →
    ∃ t, loadImage s file = some t ∧ t = s.setMem t.mem ∧ t.Inv ∧
      (∀ k w, ws[k]? = some w → origin.toNat + k ≤ 0xFFFF →
        t.mem.read (origin + BitVec.ofNat 16 k) = w) ∧
      ∀ a : Word, a.toNat < origin.toNat ∨ origin.toNat + ws.length ≤ a.toNat →
        t.mem.read a = s.mem.read a

/-- The run loop of R96 in pieces: a running machine takes one `step` and the loop goes on from where
that ends; m + n steps are m steps, then n more; and a machine that has halted or faulted takes no
further step. -/
def Obligations.RunLoopStopsAtTheEnd : Prop :=
  (∀ n s, s.runState = .running → runLoop (n + 1) s =
    match step s with
    | .next t => runLoop n t
    | .fault f => .fault f
    | .refused r => .refused r) ∧
  (∀ s, s.runState = .running → runLoop 1 s = step s) ∧
  (∀ m n s, runLoop (m + n) s =
    match runLoop m s with
    | .next t => runLoop n t
    | .fault f => .fault f
    | .refused r => .refused r) ∧
  ∀ n s, s.runState ≠ .running → runLoop n s = .next s

/-- 70_reset_and_hazards.md section 2 (rule R193, which the spec marks as derived): from any running
state with zeroed memory and no input to come, a step is a NOP: PC advances by one, KBSR's address
included, and the state stays such a state. So a machine created with nothing loaded, on a console
that has no input, slides through NOPs: after n steps it still runs, PC has advanced by n and wrapped,
and its registers and memory are as created. -/
def Obligations.UnloadedMachineSlidesThroughNops : Prop :=
  (∀ s : State, s.runState = .running → s.mem = Memory.zeroed → s.console.input = [] →
    s.console.tail ≠ .unknown →
    ∃ t, step s = .next t ∧ t.runState = .running ∧ t.pc = s.pc + 1 ∧ t.regs = s.regs ∧
      t.cond = s.cond ∧ t.mem = Memory.zeroed ∧ t.params = s.params ∧ t.console.input = [] ∧
      t.console.tail = s.console.tail ∧ t.console.output = s.console.output) ∧
  ∀ (p : Params) (c : Console), c.input = [] → c.tail ≠ .unknown →
    ∀ n, ∃ t, runLoop n (State.create p c) = .next t ∧ t.runState = .running ∧
      t.pc = p.pcReset + BitVec.ofNat 16 n ∧ t.regs = Regs.zeroed ∧ t.mem = Memory.zeroed

/-! ### Memory, the keyboard registers and the console (20_memory.md) -/

/-- The model's memory form (log entry 1): two canonical memories that read alike are equal. -/
def Obligations.MemoriesThatReadAlikeAreEqual : Prop :=
  ∀ m n : Memory, m.wf = true → n.wf = true → (∀ a, m.read a = n.read a) → m = n

/-- 20_memory.md section 3 and 10_state.md section 4 (decisions D8, D9, D11): a mapped read of KBSR is
a poll. It returns 0x8000 after one input byte moved into KBDR zero-extended, or 0x0000 with KBDR and
the input stream as before, and leaves KBSR holding what it returned. Nothing else changes. -/
def Obligations.MappedReadOfKbsrPolls : Prop :=
  ∀ s : State, s.Inv →
    ∃ v t, memRead 0xFE00 s = (v, t) ∧ t.mem.read 0xFE00 = v ∧
      t.regs = s.regs ∧ t.cond = s.cond ∧ SameControl s t ∧
      SameCellsBut [0xFE00, 0xFE02] s t ∧ t.console.output = s.console.output ∧
      t.console.tail = s.console.tail ∧
      ((v = 0x8000 ∧ ∃ b : Byte, (t.mem.read 0xFE02).toNat = b.toNat ∧
          t.console.events = s.console.events ++ [.poll true, .read b] ∧
          (s.console.input = b :: t.console.input ∨
            (s.console.input = [] ∧ t.console.input = [] ∧ s.console.tail = .unknown))) ∨
        (v = 0x0000 ∧ t.mem.read 0xFE02 = s.mem.read 0xFE02 ∧
          t.console.events = s.console.events ++ [.poll false] ∧
          t.console.input = s.console.input))

/-- 20_memory.md section 6 (decisions D10, D29): with a byte listed as the next input, the poll's
answer is the scheduled draw; with no byte to come it is false, whatever the draw, every time. -/
def Obligations.PollAnswersTheDrawIfInputIsPending : Prop :=
  ∀ s : State, s.Inv →
    (∀ d ds b bs, s.console.polls = d :: ds → s.console.input = b :: bs →
      (memRead 0xFE00 s).1 = if d then 0x8000 else 0x0000) ∧
    (s.console.input = [] → s.console.tail ≠ .unknown →
      (memRead 0xFE00 s).1 = 0x0000 ∧
      (memRead 0xFE00 (memRead 0xFE00 s).2).1 = 0x0000 ∧
      (memRead 0xFE00 s).2.mem.read 0xFE02 = s.mem.read 0xFE02)

/-- 20_memory.md section 6 (rule R56, which the spec marks as derived): a store into the cell at PC is
what the very next step executes. The cell must not be KBSR's, which a fetch polls (R91). -/
def Obligations.StoreIsSeenByTheNextFetch : Prop :=
  ∀ (s : State) (sr : Reg), s.Inv → s.runState = .running → s.pc ≠ kbsrAddr →
    ∃ t, exec (.st sr 0) s = .next t ∧
      step t = exec (decode (s.readReg sr)) (t.setPc (s.pc + 1))

/-- 20_memory.md section 6: `write_byte` appends one byte to the output stream, `flush` changes nothing
in it, and a blocking read returns the next byte, then EOF, or does not return (rule R54; D24, D25). -/
def Obligations.ConsoleCallsFollowTheStreams : Prop :=
  (∀ (s : State) (b : Byte), (s.writeByte b).console.output = s.console.output ++ [b]) ∧
  (∀ s : State, s.flush.console.output = s.console.output) ∧
  (∀ (c : Console) (b : Byte) (bs : List Byte), c.input = b :: bs →
    c.readCharBlocking.1 = .byte b ∧ c.readCharBlocking.2.input = bs) ∧
  ∀ c : Console, c.input = [] →
    (c.tail = .endOfInput → c.readCharBlocking.1 = .endOfInput) ∧
    (c.tail = .neverSupplied → c.readCharBlocking.1 = .never) ∧
    (c.tail = .unknown → ∃ b, c.readCharBlocking.1 = .byte b)

/-! ### The step (40_step.md) -/

/-- R91 and R92: a step is the mapped read at PC, PC + 1, decode and the one arm. Where PC is not
KBSR's address the mapped read is the cell at PC and nothing else changes before the arm runs. -/
def Obligations.StepRunsTheFetchedInstruction : Prop :=
  ∀ s : State, s.runState = .running →
    step s = exec (decode (memRead s.pc s).1) ((memRead s.pc s).2.setPc (s.pc + 1)) ∧
    (s.pc ≠ kbsrAddr → step s = exec (decode (s.mem.read s.pc)) (s.setPc (s.pc + 1)))

/-- 40_step.md section 1 (decision D7): a fetch from KBSR executes 0x0000, a NOP, when the poll finds
no input, and 0x8000, RTI, with the byte already in KBDR, when it does. -/
def Obligations.FetchFromKbsrPolls : Prop :=
  ∀ s : State, s.Inv → s.runState = .running → s.pc = 0xFE00 →
    ∃ t, step s = .next t ∧ t.pc = 0xFE01 ∧ t.regs = s.regs ∧ t.cond = s.cond ∧
      SameCellsBut [0xFE00, 0xFE02] s t ∧
      ((t.runState = .running ∧ t.mem.read 0xFE00 = 0x0000 ∧
          t.mem.read 0xFE02 = s.mem.read 0xFE02 ∧
          t.console.events = s.console.events ++ [.poll false]) ∨
        (t.runState = .faulted (.reservedOpcode .rti) ∧ t.mem.read 0xFE00 = 0x8000 ∧
          ∃ b : Byte, (t.mem.read 0xFE02).toNat = b.toNat ∧
            t.console.events = s.console.events ++ [.poll true, .read b]))

/-- 40_step.md section 1 (rule R90, decisions D20, D21): no step in HALTED or FAULTED. -/
def Obligations.NoStepAfterTheEnd : Prop :=
  ∀ s : State, (s.runState = .halted → step s = .fault .halted) ∧
    ∀ r, s.runState = .faulted r → step s = .fault (.faulted r)

/-- R94: after `setcc(v)` COND is N for 0x8000 to 0xFFFF, Z for 0 and P otherwise, and nothing else
has changed. -/
def Obligations.SetccFollowsTheSign : Prop :=
  ∀ (s : State) (v : Word), FlagMatches (s.setcc v).cond v ∧
    s.setcc v = s.setCond (s.setcc v).cond ∧ (s.setcc v).cond ≠ .noFlag

/-! ### Operate instructions (41_operate.md) -/

/-- R100, R101: DR = SR1 + SR2, or SR1 + imm5 sign-extended, modulo 2^16 (R105), then COND from DR;
nothing else changes. -/
def Obligations.AddBothForms : Prop :=
  (∀ (dr sr1 sr2 : Reg) (s : State), ∃ t, exec (.addReg dr sr1 sr2) s = .next t ∧
    OnlyResultWritten dr
      (BitVec.ofNat 16 ((s.readReg sr1).toNat + (s.readReg sr2).toNat)) s t) ∧
  ∀ (dr sr1 : Reg) (imm5 : BitVec 5) (s : State), ∃ t, exec (.addImm dr sr1 imm5) s = .next t ∧
    OnlyResultWritten dr (BitVec.ofInt 16 ((s.readReg sr1).toNat + imm5.toInt)) s t

/-- R102, R103: DR = SR1 & SR2, or SR1 & imm5 sign-extended; nothing else. -/
def Obligations.AndBothForms : Prop :=
  (∀ (dr sr1 sr2 : Reg) (s : State), ∃ t, exec (.andReg dr sr1 sr2) s = .next t ∧
    OnlyResultWritten dr (s.readReg sr1 &&& s.readReg sr2) s t) ∧
  ∀ (dr sr1 : Reg) (imm5 : BitVec 5) (s : State), ∃ t, exec (.andImm dr sr1 imm5) s = .next t ∧
    OnlyResultWritten dr (s.readReg sr1 &&& BitVec.ofInt 16 imm5.toInt) s t

/-- R104: DR is the bitwise complement of SR; nothing else. -/
def Obligations.NotComplements : Prop :=
  ∀ (dr sr : Reg) (s : State), ∃ t v, exec (.notReg dr sr) s = .next t ∧
    (∀ n, n < 16 → v.getLsbD n = !(s.readReg sr).getLsbD n) ∧ OnlyResultWritten dr v s t

/-! ### Control transfer (42_control.md) -/

/-- R110: BR branches iff COND is one of the requested flags; it changes PC at most. -/
def Obligations.BranchIffTheFlagIsRequested : Prop :=
  ∀ (n z p : Bool) (off9 : BitVec 9) (s : State),
    (((n = true ∧ s.cond = .negative) ∨ (z = true ∧ s.cond = .zero) ∨
        (p = true ∧ s.cond = .positive)) →
      exec (.br n z p off9) s =
        .next (s.setPc (BitVec.ofInt 16 (s.pc.toNat + off9.toInt)))) ∧
    (¬((n = true ∧ s.cond = .negative) ∨ (z = true ∧ s.cond = .zero) ∨
        (p = true ∧ s.cond = .positive)) →
      exec (.br n z p off9) s = .next s)

/-- R111: `PC = register[baseR]`, R7 not special-cased; nothing else changes. -/
def Obligations.JmpGoesToTheBaseRegister : Prop :=
  ∀ (base : Reg) (s : State), ∃ t, exec (.jmp base) s = .next t ∧ t.pc = s.readReg base ∧
    t = s.setPc t.pc

/-- R112: JSR saves PC in R7, then adds offset11 to PC; nothing else changes. -/
def Obligations.JsrSavesAndJumps : Prop :=
  ∀ (off11 : BitVec 11) (s : State), ∃ t, exec (.jsr off11) s = .next t ∧
    t.readReg .r7 = s.pc ∧ t.pc = BitVec.ofInt 16 (s.pc.toNat + off11.toInt) ∧
    SameRegsBut [.r7] s t ∧ t.cond = s.cond ∧ t.mem = s.mem ∧ t.console = s.console ∧
    t.runState = s.runState ∧ t.params = s.params

/-- R113: JSRR saves PC in R7, then sets PC from the base register read after that write, so `JSRR R7`
continues at the next instruction; nothing else changes. -/
def Obligations.JsrrSavesThenReadsTheBase : Prop :=
  ∀ (base : Reg) (s : State), ∃ t, exec (.jsrr base) s = .next t ∧
    t.readReg .r7 = s.pc ∧ t.pc = (if base = .r7 then s.pc else s.readReg base) ∧
    SameRegsBut [.r7] s t ∧ t.cond = s.cond ∧ t.mem = s.mem ∧ t.console = s.console ∧
    t.runState = s.runState ∧ t.params = s.params

/-- 95_test_vectors.md L1-6: after a call, `JMP R7` returns PC exactly to the saved value, from any
state that still holds it in R7. -/
def Obligations.ReturnUndoesTheCall : Prop :=
  ∀ (s : State) (call : Instr), (∃ off, call = .jsr off) ∨ (∃ base, call = .jsrr base) →
    ∃ t, exec call s = .next t ∧
      ∀ u : State, u.readReg .r7 = t.readReg .r7 → exec .ret u = .next (u.setPc s.pc)

/-! ### Loads, LEA and stores (43_load_store.md) -/

/-- R120: LD reads the cell at PC + offset9 by the mapped read. -/
def Obligations.LdLoadsPcRelative : Prop :=
  ∀ (dr : Reg) (off9 : BitVec 9) (s : State), ∃ t, exec (.ld dr off9) s = .next t ∧
    LoadedFrom dr (BitVec.ofInt 16 (s.pc.toNat + off9.toInt)) s t

/-- R121: LDI reads a pointer at PC + offset9, then the cell it points to, both by the mapped read; in
a canonical memory the two do not both poll. -/
def Obligations.LdiLoadsThroughAPointer : Prop :=
  ∀ (dr : Reg) (off9 : BitVec 9) (s : State), ∃ t ptr u, exec (.ldi dr off9) s = .next t ∧
    memRead (BitVec.ofInt 16 (s.pc.toNat + off9.toInt)) s = (ptr, u) ∧
    LoadedFrom dr ptr u t ∧ SameRegsBut [dr] s t ∧ SameControl s t ∧
    (BitVec.ofInt 16 (s.pc.toNat + off9.toInt) ≠ kbsrAddr →
      ptr = s.mem.read (BitVec.ofInt 16 (s.pc.toNat + off9.toInt)) ∧ u = s) ∧
    (s.Inv → BitVec.ofInt 16 (s.pc.toNat + off9.toInt) = kbsrAddr → ptr ≠ kbsrAddr)

/-- R122: LDR reads the cell at baseR + offset6 by the mapped read. -/
def Obligations.LdrLoadsBasePlusOffset : Prop :=
  ∀ (dr base : Reg) (off6 : BitVec 6) (s : State), ∃ t, exec (.ldr dr base off6) s = .next t ∧
    LoadedFrom dr (BitVec.ofInt 16 ((s.readReg base).toNat + off6.toInt)) s t

/-- R123: LEA writes the address PC + offset9 and COND from it, with no memory access. -/
def Obligations.LeaWritesTheAddress : Prop :=
  ∀ (dr : Reg) (off9 : BitVec 9) (s : State), ∃ t, exec (.lea dr off9) s = .next t ∧
    OnlyResultWritten dr (BitVec.ofInt 16 (s.pc.toNat + off9.toInt)) s t

/-- R124: ST stores SR at PC + offset9; COND and all else stay. -/
def Obligations.StStoresPcRelative : Prop :=
  ∀ (sr : Reg) (off9 : BitVec 9) (s : State), ∃ t, exec (.st sr off9) s = .next t ∧
    StoredAt (BitVec.ofInt 16 (s.pc.toNat + off9.toInt)) (s.readReg sr) s t

/-- 43_load_store.md section 3 (rule R125): STI reads a pointer at PC + offset9, then stores SR where
it points. That a pointer cell at KBSR polls is decision D7; elsewhere nothing but the store happens. -/
def Obligations.StiStoresThroughAPointer : Prop :=
  ∀ (sr : Reg) (off9 : BitVec 9) (s : State), ∃ t ptr u, exec (.sti sr off9) s = .next t ∧
    memRead (BitVec.ofInt 16 (s.pc.toNat + off9.toInt)) s = (ptr, u) ∧
    StoredAt ptr (s.readReg sr) u t ∧ t.regs = s.regs ∧ t.cond = s.cond ∧ SameControl s t ∧
    (BitVec.ofInt 16 (s.pc.toNat + off9.toInt) ≠ kbsrAddr →
      ptr = s.mem.read (BitVec.ofInt 16 (s.pc.toNat + off9.toInt)) ∧ u = s)

/-- R126: STR stores SR at baseR + offset6; COND and all else stay. -/
def Obligations.StrStoresBasePlusOffset : Prop :=
  ∀ (sr base : Reg) (off6 : BitVec 6) (s : State), ∃ t, exec (.str sr base off6) s = .next t ∧
    StoredAt (BitVec.ofInt 16 ((s.readReg base).toNat + off6.toInt)) (s.readReg sr) s t

/-! ### Trap vectors (44_trap.md) -/

/-- R142: GETC, where the host supplies a byte: R0 is the byte zero-extended (D11), COND follows it, no
echo; R7 as rule R141 says (D13); nothing else changes. -/
def Obligations.GetcReadsOneCharacter : Prop :=
  ∀ s : State, s.console.hasInput = true →
    ∃ b c t, s.console.takeByte = some (b, c) ∧ exec .trapGetc s = .next t ∧
      (t.readReg .r0).toNat = b.toNat ∧ FlagMatches t.cond (t.readReg .r0) ∧
      TrapLinked s t ∧ SameRegsBut [.r0, .r7] s t ∧ SameControl s t ∧ t.mem = s.mem ∧
      t.console = c ∧ t.console.output = s.console.output

/-- R143: OUT appends the low 8 bits of R0 to the output. R7 as rule R141 says (D13). -/
def Obligations.OutWritesTheLowByte : Prop :=
  ∀ s : State, ∃ t, exec .trapOut s = .next t ∧
    t.console.output = s.console.output ++ [BitVec.ofNat 8 (s.readReg .r0).toNat] ∧
    OnlyCallsAdded s t ∧
    TrapLinked s t ∧ SameRegsBut [.r7] s t ∧ SameControl s t ∧ t.cond = s.cond ∧ t.mem = s.mem

/-- R144 for a string at R0 whose reads do not poll: PUTS writes the low 8 bits (D17) of each cell up to
the zero cell. R7 as rule R141 says (D13); R0, COND, memory and input stay. -/
def Obligations.PutsWritesTheString : Prop :=
  ∀ (s : State) (n : Nat), StringAt s.mem (s.readReg .r0) n →
    StringReadsPlain s (s.readReg .r0) n →
    ∃ t, exec .trapPuts s = .next t ∧
      t.console.output = s.console.output ++
        (cellsFrom s.mem (s.readReg .r0) n).map (fun w => BitVec.ofNat 8 w.toNat) ∧
      OnlyCallsAdded s t ∧
      TrapLinked s t ∧ SameRegsBut [.r7] s t ∧ SameControl s t ∧ t.cond = s.cond ∧ t.mem = s.mem

/-- R146 for a string at R0 whose reads do not poll: PUTSP writes each cell's low byte, then its high
byte if that is not zero. R7 as rule R141 says (D13); R0, COND, memory and input stay. -/
def Obligations.PutspWritesThePackedString : Prop :=
  ∀ (s : State) (n : Nat), StringAt s.mem (s.readReg .r0) n →
    StringReadsPlain s (s.readReg .r0) n →
    ∃ t, exec .trapPutsp s = .next t ∧
      t.console.output = s.console.output ++
        (cellsFrom s.mem (s.readReg .r0) n).flatMap (fun w =>
          BitVec.ofNat 8 w.toNat ::
            if w.toNat / 256 = 0 then [] else [BitVec.ofNat 8 (w.toNat / 256)]) ∧
      OnlyCallsAdded s t ∧
      TrapLinked s t ∧ SameRegsBut [.r7] s t ∧ SameControl s t ∧ t.cond = s.cond ∧ t.mem = s.mem

/-- 44_trap.md section 1 (rule R150; D12, D13): PUTS and PUTSP always end, by the zero cell or by
Fault(UnterminatedString); they write no register but R7, no COND, and no memory but what the polls of
mapped string reads leave in KBSR and KBDR. -/
def Obligations.StringTrapsWriteNoState : Prop :=
  ∀ (s : State) (i : Instr), i = .trapPuts ∨ i = .trapPutsp →
    ∃ t, exec i s = .next t ∧
      (t.runState = s.runState ∨ t.runState = .faulted .unterminatedString) ∧
      TrapLinked s t ∧ SameRegsBut [.r7] s t ∧ t.pc = s.pc ∧ t.cond = s.cond ∧
      t.params = s.params ∧ SameCellsBut [kbsrAddr, kbdrAddr] s t ∧
      (s.params.trapReadsMapped = false → t.mem = s.mem ∧ t.console.input = s.console.input)

/-- 44_trap.md section 2 under TRAP_READS_MAPPED = true (decision D12): the read of a string cell at KBSR
polls. Without input the string is empty; with a pending byte the cell reads 0x8000, of which PUTS
writes the low byte and PUTSP both. -/
def Obligations.MappedStringReadOfKbsrPolls : Prop :=
  ∀ (s : State) (i : Instr) (text : List Byte), s.Inv → s.params.trapReadsMapped = true →
    s.readReg .r0 = kbsrAddr →
    (i = .trapPuts ∧ text = [0x00]) ∨ (i = .trapPutsp ∧ text = [0x00, 0x80]) →
    (s.console.input = [] → s.console.tail ≠ .unknown →
      ∃ t, exec i s = .next t ∧ t.console.output = s.console.output ∧ t.runState = s.runState ∧
        t.mem.read kbsrAddr = 0x0000 ∧ SameCellsBut [kbsrAddr] s t) ∧
    ∀ b bs ds, s.console.input = b :: bs → s.console.polls = true :: ds →
      s.mem.read (kbsrAddr + 1) = 0 →
      ∃ t, exec i s = .next t ∧ t.console.output = s.console.output ++ text ∧
        t.runState = s.runState ∧ t.console.input = bs ∧ t.mem.read kbsrAddr = 0x8000 ∧
        (t.mem.read kbdrAddr).toNat = b.toNat ∧ SameCellsBut [kbsrAddr, kbdrAddr] s t

/-- Decisions D17, D18 (44_trap.md section 2, 60_exceptions.md section 2): with raw string reads and no
zero cell in memory, PUTS and PUTSP fault, and the output has grown by some prefix, of a length the
model leaves free, of the bytes the 65536 cells would have written. -/
def Obligations.UnterminatedStringFaults : Prop :=
  ∀ s : State, s.params.trapReadsMapped = false → (∀ a, s.mem.read a ≠ 0) →
    ∀ i chars, (i = .trapPuts ∧ chars = putsChars) ∨ (i = .trapPutsp ∧ chars = putspChars) →
      ∃ t k, exec i s = .next t ∧ t.runState = .faulted .unterminatedString ∧
        t.console.output = s.console.output ++
          ((cellsFrom s.mem (s.readReg .r0) 65536).flatMap chars).take k ∧
        TrapLinked s t ∧ SameRegsBut [.r7] s t ∧ t.pc = s.pc ∧ t.cond = s.cond ∧ t.mem = s.mem

/-- R145: IN, where the host supplies a byte: IN_PROMPT (D14) and the echo are written, R0 is the byte
zero-extended (D11), COND follows it. R7 as rule R141 says (D13); nothing else changes. -/
def Obligations.InPromptsReadsAndEchoes : Prop :=
  ∀ s : State, s.console.hasInput = true →
    ∃ b c t, s.console.takeByte = some (b, c) ∧ exec .trapIn s = .next t ∧
      (t.readReg .r0).toNat = b.toNat ∧ FlagMatches t.cond (t.readReg .r0) ∧
      TrapLinked s t ∧ SameRegsBut [.r0, .r7] s t ∧ SameControl s t ∧ t.mem = s.mem ∧
      t.console.output = s.console.output ++ s.params.inPrompt ++ [b] ∧
      t.console = { c with events := t.console.events }

/-- End of input on a blocking read is a fatal fault for GETC and IN (44_trap.md section 2); for IN the
prompt has been written (D16); R0, COND and memory are unchanged. -/
def Obligations.EndOfInputFaults : Prop :=
  ∀ s : State, s.console.input = [] → s.console.tail = .endOfInput →
    ∀ i text, (i = .trapGetc ∧ text = []) ∨ (i = .trapIn ∧ text = s.params.inPrompt) →
      ∃ t, exec i s = .next t ∧ t.runState = .faulted .endOfInput ∧
        t.console.output = s.console.output ++ text ∧ OnlyCallsAdded s t ∧ TrapLinked s t ∧
        SameRegsBut [.r7] s t ∧ t.pc = s.pc ∧ t.cond = s.cond ∧ t.mem = s.mem ∧
        t.params = s.params

/-- R147: HALT writes HALT_NOTICE (D15) and halts; PC, registers, COND and memory stay. R7 as rule R141
says (D13). -/
def Obligations.HaltEndsTheRun : Prop :=
  ∀ s : State, ∃ t, exec .trapHalt s = .next t ∧ EndedWell t ∧
    t.console.output = s.console.output ++ s.params.haltNotice ∧
    OnlyCallsAdded s t ∧ TrapLinked s t ∧ SameRegsBut [.r7] s t ∧
    t.pc = s.pc ∧ t.cond = s.cond ∧ t.mem = s.mem ∧ t.params = s.params

/-- R148: any other vector is the fault UnknownTrapVector(v), with no console effect and no register
or COND change but R7 under R141 (D13). -/
def Obligations.UnknownVectorFaults : Prop :=
  ∀ (v : BitVec 8) (s : State), ∃ t, exec (.trapBadvec v) s = .next t ∧
    t.runState = .faulted (.unknownTrapVector v) ∧ t.console = s.console ∧ TrapLinked s t ∧
    SameRegsBut [.r7] s t ∧ t.pc = s.pc ∧ t.cond = s.cond ∧ t.mem = s.mem

/-! ### Reserved opcodes (45_reserved.md) -/

/-- R160, R161: RTI and RES are unconditionally fatal, and change nothing else. -/
def Obligations.ReservedOpcodesFault : Prop :=
  ∀ s : State,
    exec .rti s = .next (s.setRunState (.faulted (.reservedOpcode .rti))) ∧
    exec .res s = .next (s.setRunState (.faulted (.reservedOpcode .res)))

/-! ### The whole machine -/

/-- Every step keeps the memory's canonical form. -/
def Obligations.EveryStepKeepsTheInvariant : Prop :=
  ∀ s t : State, s.Inv → step s = .next t → t.Inv

/-- 10_state.md section 3 (rule R25, decision D5): once COND holds a flag it always does, the run state
apart nothing makes it NONE again; and the open parameters never change. -/
def Obligations.EveryStepKeepsAFlagAndTheParameters : Prop :=
  ∀ s t : State, step s = .next t →
    t.params = s.params ∧ (s.cond ≠ .noFlag → t.cond ≠ .noFlag)

/-- R26, by the conflict's resolution C1: COND changes only by the instructions that call setcc and not
by one that faults; where one of them does not fault, COND is the flag of the register it wrote. -/
def Obligations.OnlySetccInstructionsChangeCond : Prop :=
  ∀ (i : Instr) (s t : State), exec i s = .next t →
    (t.cond ≠ s.cond → i.setsCond = true ∧ t.runState = s.runState) ∧
    (i.setsCond = true → s.runState = .running → t.runState = .running →
      ∃ r, i.writtenRegs = [r] ∧ FlagMatches t.cond (t.readReg r))

/-- 10_state.md section 1 (rule R21, decision D13): no instruction writes a general register but those
listed, and TRAP R7 under TRAP_LINKS_R7. -/
def Obligations.OnlyListedRegistersAreWritten : Prop :=
  ∀ (i : Instr) (s t : State) (r : Reg), exec i s = .next t → t.readReg r ≠ s.readReg r →
    r ∈ i.writtenRegs ∨ (i.isTrap = true ∧ s.params.trapLinksR7 = true ∧ r = .r7)

/-- R95: a running machine's step ends HALTED only by TRAP HALT, and TRAP HALT always halts. -/
def Obligations.HaltOnlyByTrapHalt : Prop :=
  ∀ s t : State, s.runState = .running → step s = .next t →
    (t.runState = .halted ↔ decode (fetch s).1 = .trapHalt)

/-- 60_exceptions.md sections 2 and 3 (rules R171, R174; D18, D20): a step that faults carries a reason
its own opcode can raise, and leaves PC one past the faulting instruction. -/
def Obligations.EachFaultBelongsToItsOpcode : Prop :=
  ∀ (s t : State) (r : FaultReason), s.runState = .running → step s = .next t →
    t.runState = .faulted r → (decode (fetch s).1).mayFaultFor r = true ∧ t.pc = s.pc + 1

/-- R97 and the total dispatch of R92: a running machine's step always completes, but for a blocking
read of GETC or IN that the host never answers. -/
def Obligations.OnlyABlockingReadCanWait : Prop :=
  ∀ s : State, s.runState = .running →
    (∃ t, step s = .next t) ∨
    (step s = .fault .readNeverReturns ∧
      (decode (fetch s).1 = .trapGetc ∨ decode (fetch s).1 = .trapIn) ∧
      (fetch s).2.console.input = [] ∧ (fetch s).2.console.tail = .neverSupplied)

/-- The record of console calls only grows, and no step reads it: a step from a state with another
record makes the same calls and ends in the same state but for the record (rule R98). -/
def Obligations.TheConsoleRecordIsNeverRead : Prop :=
  ∀ (s t : State) (es : List ConsoleEvent), step s = .next t →
    ∃ new, t.console.events = s.console.events ++ new ∧
      step (s.withEvents es) = .next (t.withEvents (es ++ new))
end

