-- ==== Sys2Proof/Laws/Decode.lean ====
section
/-! SUPPORT. Laws/Decode.lean: the register and opcode fields read back, and that every word decodes to a
well-formed instruction. -/

namespace Sys2Proof

@[simp] theorem Reg.ofBits_bits (r : Reg) : Reg.ofBits r.bits = r := by cases r <;> rfl

@[simp] theorem Reg.bits_ofBits (b : BitVec 3) : (Reg.ofBits b).bits = b := by revert b; decide

theorem Reg.bits_injective {r q : Reg} (h : r.bits = q.bits) : r = q := by
  rw [← Reg.ofBits_bits r, h, Reg.ofBits_bits]

/-- The vectors with rows of their own are exactly the six (rule R140). -/
theorem definedVector_iff (v : BitVec 8) : definedVector v = true ↔
    v = 0x20 ∨ v = 0x21 ∨ v = 0x22 ∨ v = 0x23 ∨ v = 0x24 ∨ v = 0x25 := by revert v; decide

theorem wf_decodeTrap (v : BitVec 8) : (decodeTrap v).wf = true := by revert v; decide

theorem decode_wf (w : Word) : (decode w).wf = true := by
  unfold decode
  cases opcodeOf w <;> simp only <;>
    first
    | rfl
    | exact wf_decodeTrap _
    | (split <;> rfl)

end Sys2Proof
end

