-- ==== Sys2Proof/Laws/Memory.lean ====
section
/-! SUPPORT. Laws/Memory.lean: reading after writing, and that every memory operation keeps the
canonical form. -/

namespace Sys2Proof.Machine

theorem lookupCell_storeCell_same (l : List Cell) (a : Nat) (v : Word)
    (h : canonicalCells l = true) : lookupCell (storeCell l a v) a = v := by
  induction l with
  | nil => by_cases hv : v = unlistedWord <;> simp [storeCell, lookupCell, hv]
  | cons c rest ih =>
    obtain ⟨k, w⟩ := c
    simp only [canonicalCells, Bool.and_eq_true, List.all_eq_true, decide_eq_true_eq] at h
    obtain ⟨⟨⟨hk, hw⟩, hall⟩, hrest⟩ := h
    have absent : ∀ l : List Cell, (∀ c ∈ l, a < c.1) → lookupCell l a = unlistedWord := by
      intro l hl
      induction l with
      | nil => rfl
      | cons d ds ihd =>
        have h1 := hl d (by simp)
        have : a ≠ d.1 := by omega
        simp only [lookupCell, this, if_false]
        exact ihd fun c hc => hl c (by simp [hc])
    unfold storeCell
    split
    · rename_i hlt
      split
      · rename_i hv
        subst hv
        refine absent _ fun c hc => ?_
        rcases List.mem_cons.mp hc with rfl | hc
        · exact hlt
        · exact Nat.lt_trans hlt (hall c hc)
      · simp [lookupCell]
    · split
      · rename_i hlt heq
        subst heq
        split
        · rename_i hv
          subst hv
          exact absent _ hall
        · simp [lookupCell]
      · rename_i hlt hne
        simp [lookupCell, hne, ih hrest]

theorem lookupCell_storeCell_ne (l : List Cell) {a b : Nat} (v : Word) (h : b ≠ a) :
    lookupCell (storeCell l a v) b = lookupCell l b := by
  induction l with
  | nil => by_cases hv : v = unlistedWord <;> simp [storeCell, lookupCell, hv, h]
  | cons c rest ih =>
    obtain ⟨k, w⟩ := c
    unfold storeCell
    split
    · split
      · rfl
      · simp [lookupCell, h]
    · split
      · rename_i heq
        subst heq
        split <;> simp [lookupCell, h]
      · simp [lookupCell, ih]

theorem storeCell_bound (l : List Cell) (k a : Nat) (v : Word) (ha : k < a)
    (h : l.all (fun c => decide (k < c.1)) = true) :
    (storeCell l a v).all (fun c => decide (k < c.1)) = true := by
  induction l with
  | nil => by_cases hv : v = unlistedWord <;> simp [storeCell, hv, ha]
  | cons c rest ih =>
    obtain ⟨j, w⟩ := c
    have h' := h
    simp only [List.all_cons, Bool.and_eq_true, decide_eq_true_eq] at h
    unfold storeCell
    split
    · split
      · exact h'
      · rw [List.all_cons, h']; simp [ha]
    · split
      · split
        · exact h.2
        · rw [List.all_cons, h.2]; simp [ha]
      · rw [List.all_cons, ih h.2]; simp [h.1]

theorem canonicalCells_storeCell (l : List Cell) (a : Nat) (v : Word) (ha : a < memorySize)
    (h : canonicalCells l = true) : canonicalCells (storeCell l a v) = true := by
  induction l with
  | nil => by_cases hv : v = unlistedWord <;> simp [storeCell, canonicalCells, hv, ha]
  | cons c rest ih =>
    obtain ⟨k, w⟩ := c
    have h' := h
    simp only [canonicalCells, Bool.and_eq_true, decide_eq_true_eq] at h
    obtain ⟨⟨⟨hk, hw⟩, hall⟩, hrest⟩ := h
    unfold storeCell
    split
    · rename_i hlt
      split
      · exact h'
      · rename_i hv
        simp only [canonicalCells, Bool.and_eq_true, decide_eq_true_eq, List.all_cons]
        refine ⟨⟨⟨ha, hv⟩, hlt, ?_⟩, ⟨⟨hk, hw⟩, hall⟩, hrest⟩
        simp only [List.all_eq_true, decide_eq_true_eq] at hall ⊢
        exact fun c hc => Nat.lt_trans hlt (hall c hc)
    · split
      · rename_i heq
        subst heq
        split
        · exact hrest
        · rename_i hv
          simp only [canonicalCells, Bool.and_eq_true, decide_eq_true_eq]
          exact ⟨⟨⟨ha, hv⟩, hall⟩, hrest⟩
      · rename_i hlt hne
        simp only [canonicalCells, Bool.and_eq_true, decide_eq_true_eq]
        exact ⟨⟨⟨hk, hw⟩, storeCell_bound rest k a v (by omega) hall⟩, ih hrest⟩

/-- A read after a write to the same cell gives the value written (rules R48, R53). -/
theorem Memory.read_write_same (m : Memory) (a v : Word) (h : m.wf = true) :
    (m.write a v).read a = v := lookupCell_storeCell_same m.cells a.toNat v h

/-- A write leaves every other cell alone (rule R48). -/
theorem Memory.read_write_ne (m : Memory) {a b : Word} (v : Word) (h : b ≠ a) :
    (m.write a v).read b = m.read b :=
  lookupCell_storeCell_ne m.cells v fun e => h (BitVec.eq_of_toNat_eq e)

/-- A write keeps the canonical form. -/
theorem Memory.wf_write (m : Memory) (a v : Word) (h : m.wf = true) : (m.write a v).wf = true :=
  canonicalCells_storeCell m.cells a.toNat v a.isLt h

/-- Zeroed memory is in canonical form and every cell of it reads 0 (rule R37). -/
theorem Memory.wf_zeroed : Memory.zeroed.wf = true := rfl

@[simp] theorem Memory.read_zeroed (a : Word) : Memory.zeroed.read a = 0 := rfl

end Sys2Proof.Machine
end

