-- ==== Sys2Proof/Laws/State.lean ====
section
/-! SUPPORT. Laws/State.lean: one lemma per field and per update of State, true by unfolding once. -/

namespace Sys2Proof.Machine

@[simp] theorem State.setPc_params (s : State) (v : Word) : (s.setPc v).params = s.params := rfl
@[simp] theorem State.setPc_regs (s : State) (v : Word) : (s.setPc v).regs = s.regs := rfl
@[simp] theorem State.setPc_pc (s : State) (v : Word) : (s.setPc v).pc = v := rfl
@[simp] theorem State.setPc_cond (s : State) (v : Word) : (s.setPc v).cond = s.cond := rfl
@[simp] theorem State.setPc_mem (s : State) (v : Word) : (s.setPc v).mem = s.mem := rfl
@[simp] theorem State.setPc_runState (s : State) (v : Word) : (s.setPc v).runState = s.runState := rfl
@[simp] theorem State.setPc_console (s : State) (v : Word) : (s.setPc v).console = s.console := rfl
@[simp] theorem State.setPc_readReg (s : State) (v : Word) (r : Reg) : (s.setPc v).readReg r = s.readReg r := rfl

@[simp] theorem State.setCond_params (s : State) (f : Cond) : (s.setCond f).params = s.params := rfl
@[simp] theorem State.setCond_regs (s : State) (f : Cond) : (s.setCond f).regs = s.regs := rfl
@[simp] theorem State.setCond_pc (s : State) (f : Cond) : (s.setCond f).pc = s.pc := rfl
@[simp] theorem State.setCond_cond (s : State) (f : Cond) : (s.setCond f).cond = f := rfl
@[simp] theorem State.setCond_mem (s : State) (f : Cond) : (s.setCond f).mem = s.mem := rfl
@[simp] theorem State.setCond_runState (s : State) (f : Cond) : (s.setCond f).runState = s.runState := rfl
@[simp] theorem State.setCond_console (s : State) (f : Cond) : (s.setCond f).console = s.console := rfl
@[simp] theorem State.setCond_readReg (s : State) (f : Cond) (r : Reg) : (s.setCond f).readReg r = s.readReg r := rfl

@[simp] theorem State.setMem_params (s : State) (m : Memory) : (s.setMem m).params = s.params := rfl
@[simp] theorem State.setMem_regs (s : State) (m : Memory) : (s.setMem m).regs = s.regs := rfl
@[simp] theorem State.setMem_pc (s : State) (m : Memory) : (s.setMem m).pc = s.pc := rfl
@[simp] theorem State.setMem_cond (s : State) (m : Memory) : (s.setMem m).cond = s.cond := rfl
@[simp] theorem State.setMem_mem (s : State) (m : Memory) : (s.setMem m).mem = m := rfl
@[simp] theorem State.setMem_runState (s : State) (m : Memory) : (s.setMem m).runState = s.runState := rfl
@[simp] theorem State.setMem_console (s : State) (m : Memory) : (s.setMem m).console = s.console := rfl
@[simp] theorem State.setMem_readReg (s : State) (m : Memory) (r : Reg) : (s.setMem m).readReg r = s.readReg r := rfl

@[simp] theorem State.setConsole_params (s : State) (c : Console) : (s.setConsole c).params = s.params := rfl
@[simp] theorem State.setConsole_regs (s : State) (c : Console) : (s.setConsole c).regs = s.regs := rfl
@[simp] theorem State.setConsole_pc (s : State) (c : Console) : (s.setConsole c).pc = s.pc := rfl
@[simp] theorem State.setConsole_cond (s : State) (c : Console) : (s.setConsole c).cond = s.cond := rfl
@[simp] theorem State.setConsole_mem (s : State) (c : Console) : (s.setConsole c).mem = s.mem := rfl
@[simp] theorem State.setConsole_runState (s : State) (c : Console) : (s.setConsole c).runState = s.runState := rfl
@[simp] theorem State.setConsole_console (s : State) (c : Console) : (s.setConsole c).console = c := rfl
@[simp] theorem State.setConsole_readReg (s : State) (c : Console) (r : Reg) : (s.setConsole c).readReg r = s.readReg r := rfl

@[simp] theorem State.setRunState_params (s : State) (r : RunState) : (s.setRunState r).params = s.params := rfl
@[simp] theorem State.setRunState_regs (s : State) (r : RunState) : (s.setRunState r).regs = s.regs := rfl
@[simp] theorem State.setRunState_pc (s : State) (r : RunState) : (s.setRunState r).pc = s.pc := rfl
@[simp] theorem State.setRunState_cond (s : State) (r : RunState) : (s.setRunState r).cond = s.cond := rfl
@[simp] theorem State.setRunState_mem (s : State) (r : RunState) : (s.setRunState r).mem = s.mem := rfl
@[simp] theorem State.setRunState_runState (s : State) (r : RunState) : (s.setRunState r).runState = r := rfl
@[simp] theorem State.setRunState_console (s : State) (r : RunState) : (s.setRunState r).console = s.console := rfl
@[simp] theorem State.setRunState_readReg (s : State) (u : RunState) (r : Reg) : (s.setRunState u).readReg r = s.readReg r := rfl

@[simp] theorem State.writeReg_params (s : State) (r : Reg) (v : Word) : (s.writeReg r v).params = s.params := rfl
@[simp] theorem State.writeReg_pc (s : State) (r : Reg) (v : Word) : (s.writeReg r v).pc = s.pc := rfl
@[simp] theorem State.writeReg_cond (s : State) (r : Reg) (v : Word) : (s.writeReg r v).cond = s.cond := rfl
@[simp] theorem State.writeReg_mem (s : State) (r : Reg) (v : Word) : (s.writeReg r v).mem = s.mem := rfl
@[simp] theorem State.writeReg_runState (s : State) (r : Reg) (v : Word) : (s.writeReg r v).runState = s.runState := rfl
@[simp] theorem State.writeReg_console (s : State) (r : Reg) (v : Word) : (s.writeReg r v).console = s.console := rfl

@[simp] theorem Regs.read_write_same (g : Regs) (r : Reg) (v : Word) : (g.write r v).read r = v := by
  cases r <;> rfl

theorem Regs.read_write_ne (g : Regs) {r q : Reg} (v : Word) (h : q ≠ r) :
    (g.write r v).read q = g.read q := by
  cases r <;> cases q <;> first | rfl | exact absurd rfl h

@[simp] theorem State.readReg_writeReg_same (s : State) (r : Reg) (v : Word) :
    (s.writeReg r v).readReg r = v := Regs.read_write_same s.regs r v

theorem State.readReg_writeReg_ne (s : State) {r q : Reg} (v : Word) (h : q ≠ r) :
    (s.writeReg r v).readReg q = s.readReg q := Regs.read_write_ne s.regs v h

theorem State.readReg_writeReg (s : State) (r q : Reg) (v : Word) :
    (s.writeReg r v).readReg q = if q = r then v else s.readReg q := by
  by_cases h : q = r
  · subst h; simp
  · simp [h, s.readReg_writeReg_ne v h]

@[simp] theorem State.setcc_params (s : State) (v : Word) : (s.setcc v).params = s.params := rfl
@[simp] theorem State.setcc_regs (s : State) (v : Word) : (s.setcc v).regs = s.regs := rfl
@[simp] theorem State.setcc_pc (s : State) (v : Word) : (s.setcc v).pc = s.pc := rfl
@[simp] theorem State.setcc_mem (s : State) (v : Word) : (s.setcc v).mem = s.mem := rfl
@[simp] theorem State.setcc_runState (s : State) (v : Word) : (s.setcc v).runState = s.runState := rfl
@[simp] theorem State.setcc_console (s : State) (v : Word) : (s.setcc v).console = s.console := rfl
@[simp] theorem State.setcc_cond (s : State) (v : Word) : (s.setcc v).cond = condOf v := rfl
@[simp] theorem State.setcc_readReg (s : State) (v : Word) (r : Reg) : (s.setcc v).readReg r = s.readReg r := rfl

@[simp] theorem writeResult_params (dr : Reg) (v : Word) (s : State) : (writeResult dr v s).params = s.params := rfl
@[simp] theorem writeResult_pc (dr : Reg) (v : Word) (s : State) : (writeResult dr v s).pc = s.pc := rfl
@[simp] theorem writeResult_mem (dr : Reg) (v : Word) (s : State) : (writeResult dr v s).mem = s.mem := rfl
@[simp] theorem writeResult_runState (dr : Reg) (v : Word) (s : State) : (writeResult dr v s).runState = s.runState := rfl
@[simp] theorem writeResult_console (dr : Reg) (v : Word) (s : State) : (writeResult dr v s).console = s.console := rfl
@[simp] theorem writeResult_cond (dr : Reg) (v : Word) (s : State) :
    (writeResult dr v s).cond = condOf v := rfl
@[simp] theorem writeResult_readReg_same (dr : Reg) (v : Word) (s : State) :
    (writeResult dr v s).readReg dr = v := State.readReg_writeReg_same s dr v

theorem writeResult_readReg_ne {dr r : Reg} (v : Word) (s : State) (h : r ≠ dr) :
    (writeResult dr v s).readReg r = s.readReg r := State.readReg_writeReg_ne s v h

@[simp] theorem State.writeByte_params (s : State) (b : Byte) : (s.writeByte b).params = s.params := rfl
@[simp] theorem State.flush_params (s : State) : s.flush.params = s.params := rfl
@[simp] theorem State.writeByte_regs (s : State) (b : Byte) : (s.writeByte b).regs = s.regs := rfl
@[simp] theorem State.flush_regs (s : State) : s.flush.regs = s.regs := rfl
@[simp] theorem State.writeByte_pc (s : State) (b : Byte) : (s.writeByte b).pc = s.pc := rfl
@[simp] theorem State.flush_pc (s : State) : s.flush.pc = s.pc := rfl
@[simp] theorem State.writeByte_cond (s : State) (b : Byte) : (s.writeByte b).cond = s.cond := rfl
@[simp] theorem State.flush_cond (s : State) : s.flush.cond = s.cond := rfl
@[simp] theorem State.writeByte_mem (s : State) (b : Byte) : (s.writeByte b).mem = s.mem := rfl
@[simp] theorem State.flush_mem (s : State) : s.flush.mem = s.mem := rfl
@[simp] theorem State.writeByte_runState (s : State) (b : Byte) : (s.writeByte b).runState = s.runState := rfl
@[simp] theorem State.flush_runState (s : State) : s.flush.runState = s.runState := rfl

@[simp] theorem State.writeBytes_nil (s : State) : s.writeBytes [] = s := rfl
@[simp] theorem State.writeBytes_cons (s : State) (b : Byte) (bs : List Byte) :
    s.writeBytes (b :: bs) = (s.writeByte b).writeBytes bs := rfl

/-- Writing bytes changes nothing but the console's record, to which it appends the writes. -/
theorem State.writeBytes_eq (s : State) (bs : List Byte) :
    s.writeBytes bs =
      s.setConsole { s.console with events := s.console.events ++ bs.map .write } := by
  induction bs generalizing s with
  | nil => simp [State.setConsole]
  | cons b bs ih =>
    rw [State.writeBytes_cons, ih]
    simp [State.writeByte, State.setConsole, Console.log]

@[simp] theorem State.writeBytes_params (s : State) (bs : List Byte) : (s.writeBytes bs).params = s.params := by
  rw [State.writeBytes_eq]; rfl
@[simp] theorem State.writeBytes_regs (s : State) (bs : List Byte) : (s.writeBytes bs).regs = s.regs := by
  rw [State.writeBytes_eq]; rfl
@[simp] theorem State.writeBytes_pc (s : State) (bs : List Byte) : (s.writeBytes bs).pc = s.pc := by
  rw [State.writeBytes_eq]; rfl
@[simp] theorem State.writeBytes_cond (s : State) (bs : List Byte) : (s.writeBytes bs).cond = s.cond := by
  rw [State.writeBytes_eq]; rfl
@[simp] theorem State.writeBytes_mem (s : State) (bs : List Byte) : (s.writeBytes bs).mem = s.mem := by
  rw [State.writeBytes_eq]; rfl
@[simp] theorem State.writeBytes_runState (s : State) (bs : List Byte) : (s.writeBytes bs).runState = s.runState := by
  rw [State.writeBytes_eq]; rfl

end Sys2Proof.Machine
end

