-- ==== Sys2Proof/Laws/Ops.lean ====
section
/-! SUPPORT. Laws/Ops.lean: for each shared operation, once, everything it can do. -/

namespace Sys2Proof.Machine

/-! ### The console -/

@[simp] theorem Console.log_events (c : Console) (e : ConsoleEvent) :
    (c.log e).events = c.events ++ [e] := rfl
@[simp] theorem Console.log_input (c : Console) (e : ConsoleEvent) : (c.log e).input = c.input := rfl
@[simp] theorem Console.log_tail (c : Console) (e : ConsoleEvent) : (c.log e).tail = c.tail := rfl
@[simp] theorem Console.log_polls (c : Console) (e : ConsoleEvent) : (c.log e).polls = c.polls := rfl
@[simp] theorem Console.log_draws (c : Console) (e : ConsoleEvent) : (c.log e).draws = c.draws := rfl

@[simp] theorem written?_write (b : Byte) : (ConsoleEvent.write b).written? = some b := rfl
@[simp] theorem written?_poll (a : Bool) : (ConsoleEvent.poll a).written? = none := rfl
@[simp] theorem written?_read (b : Byte) : (ConsoleEvent.read b).written? = none := rfl
@[simp] theorem written?_readEof : ConsoleEvent.readEof.written? = none := rfl
@[simp] theorem written?_flush : ConsoleEvent.flush.written? = none := rfl

@[simp] theorem Console.output_log (c : Console) (e : ConsoleEvent) :
    (c.log e).output = c.output ++ e.written?.toList := by
  cases e <;> simp [Console.output, List.filterMap_append]

/-- A byte can be taken exactly where the host supplies one. -/
theorem Console.takeByte_isSome (c : Console) : c.takeByte.isSome = c.hasInput := by
  unfold takeByte hasInput
  rcases c with ⟨_ | ⟨b, rest⟩, tail, polls, draws, events⟩ <;> cases tail <;> rfl

/-- Taking a byte records it and leaves the tail and the draws of polls alone. -/
theorem Console.takeByte_spec {c c' : Console} {b : Byte} (h : c.takeByte = some (b, c')) :
    c'.events = c.events ++ [.read b] ∧ c'.tail = c.tail ∧ c'.polls = c.polls ∧
      (c.input = b :: c'.input ∨
        (c.input = [] ∧ c'.input = [] ∧ c.tail = .unknown ∧ b = Config.freeInputByte c.draws)) := by
  rcases c with ⟨_ | ⟨b', rest⟩, tail, polls, draws, events⟩ <;> cases tail <;>
    simp [takeByte, log] at h <;> obtain ⟨rfl, rfl⟩ := h <;> simp

/-- A poll changes neither the input stream nor its tail, and records its answer. -/
theorem Console.pollHasInput_spec (c : Console) :
    c.pollHasInput.2.input = c.input ∧ c.pollHasInput.2.tail = c.tail ∧
      c.pollHasInput.2.events = c.events ++ [.poll c.pollHasInput.1] := by
  rcases c with ⟨input, tail, _ | ⟨d, ds⟩, draws, events⟩ <;> simp [pollHasInput, pollDraw]

/-- A poll answers true only where the next blocking read returns a byte at once (rule R54). -/
theorem Console.hasInput_of_poll {c : Console} (h : c.pollHasInput.1 = true) :
    c.pollHasInput.2.hasInput = true := by
  have hc : c.hasInput = true := by
    simp only [pollHasInput, Bool.and_eq_true] at h
    exact h.2
  obtain ⟨h1, h2, -⟩ := c.pollHasInput_spec
  unfold hasInput at hc ⊢
  rw [h1, h2]
  exact hc

/-- After a poll that answers true there is a byte to take (rule R54). -/
theorem Console.takeByte_of_poll {c : Console} (h : c.pollHasInput.1 = true) :
    ∃ b c', c.pollHasInput.2.takeByte = some (b, c') := by
  have := Console.hasInput_of_poll h
  rw [← Console.takeByte_isSome, Option.isSome_iff_exists] at this
  obtain ⟨⟨b, c'⟩, h'⟩ := this
  exact ⟨b, c', h'⟩

/-- The three answers of a blocking read (rule R54). -/
theorem Console.readCharBlocking_cases (c : Console) :
    (∃ b c', c.takeByte = some (b, c') ∧ c.readCharBlocking = (.byte b, c')) ∨
    (c.input = [] ∧ c.tail = .endOfInput ∧ c.readCharBlocking = (.endOfInput, c.log .readEof)) ∨
    (c.input = [] ∧ c.tail = .neverSupplied ∧ c.readCharBlocking = (.never, c)) := by
  rcases c with ⟨_ | ⟨b', rest⟩, tail, polls, draws, events⟩ <;> cases tail <;>
    simp [readCharBlocking, takeByte]

/-! ### What device accesses may touch -/

/-- t differs from s at most in the cells KBSR and KBDR and in the console, whose record grew. -/
structure DevicesOnly (s t : State) : Prop where
  regs : t.regs = s.regs
  pc : t.pc = s.pc
  cond : t.cond = s.cond
  runState : t.runState = s.runState
  params : t.params = s.params
  cells : SameCellsBut [kbsrAddr, kbdrAddr] s t
  wf : s.mem.wf = true → t.mem.wf = true
  events : s.console.events <+: t.console.events

theorem DevicesOnly.refl (s : State) : DevicesOnly s s :=
  ⟨rfl, rfl, rfl, rfl, rfl, fun _ _ => rfl, id, List.prefix_rfl⟩

theorem DevicesOnly.trans {s t u : State} (h : DevicesOnly s t) (k : DevicesOnly t u) :
    DevicesOnly s u :=
  ⟨k.regs.trans h.regs, k.pc.trans h.pc, k.cond.trans h.cond, k.runState.trans h.runState,
    k.params.trans h.params, fun a ha => (k.cells a ha).trans (h.cells a ha), k.wf ∘ h.wf,
    h.events.trans k.events⟩

theorem DevicesOnly.readReg {s t : State} (h : DevicesOnly s t) (r : Reg) :
    t.readReg r = s.readReg r := by simp [State.readReg, h.regs]

theorem devicesOnly_writeByte (s : State) (b : Byte) : DevicesOnly s (s.writeByte b) :=
  ⟨rfl, rfl, rfl, rfl, rfl, fun _ _ => rfl, id, List.prefix_append _ _⟩

theorem devicesOnly_flush (s : State) : DevicesOnly s s.flush :=
  ⟨rfl, rfl, rfl, rfl, rfl, fun _ _ => rfl, id, List.prefix_append _ _⟩

theorem devicesOnly_writeBytes (s : State) (bs : List Byte) : DevicesOnly s (s.writeBytes bs) := by
  induction bs generalizing s with
  | nil => exact .refl s
  | cons b bs ih => exact (devicesOnly_writeByte s b).trans (ih _)

/-! ### Mapped and raw reads (rules R46, R47) -/

/-- The two ends of the poll of a mapped read of KBSR (rule R46). -/
theorem pollKeyboard_cases (s : State) :
    (∃ b c, s.console.pollHasInput.1 = true ∧ s.console.pollHasInput.2.takeByte = some (b, c) ∧
      pollKeyboard s = (s.setConsole c).setMem
        ((s.mem.write kbsrAddr kbsrReady).write kbdrAddr (zextByte b))) ∨
    (s.console.pollHasInput.1 = false ∧
      pollKeyboard s = (s.setConsole s.console.pollHasInput.2).setMem (s.mem.write kbsrAddr 0)) := by
  by_cases h : s.console.pollHasInput.1 = true
  · obtain ⟨b, c, hc⟩ := Console.takeByte_of_poll h
    exact .inl ⟨b, c, h, hc, by simp [pollKeyboard, h, hc]⟩
  · rw [Bool.not_eq_true] at h
    exact .inr ⟨h, by simp [pollKeyboard, h]⟩

theorem devicesOnly_pollKeyboard (s : State) : DevicesOnly s (pollKeyboard s) := by
  obtain ⟨-, -, hev⟩ := s.console.pollHasInput_spec
  rcases pollKeyboard_cases s with ⟨b, c, -, hc, h⟩ | ⟨-, h⟩ <;> rw [h]
  · obtain ⟨hev', -⟩ := Console.takeByte_spec hc
    refine ⟨rfl, rfl, rfl, rfl, rfl, fun a ha => ?_, fun hw => ?_, ?_⟩
    · simp only [List.mem_cons, List.not_mem_nil, or_false, not_or] at ha
      simp [Memory.read_write_ne _ _ ha.1, Memory.read_write_ne _ _ ha.2]
    · exact Memory.wf_write _ _ _ (Memory.wf_write _ _ _ hw)
    · simp [hev', hev]
  · refine ⟨rfl, rfl, rfl, rfl, rfl, fun a ha => ?_, fun hw => Memory.wf_write _ _ _ hw, ?_⟩
    · simp only [List.mem_cons, List.not_mem_nil, or_false, not_or] at ha
      simp [Memory.read_write_ne _ _ ha.1]
    · simp [hev]

@[simp] theorem rawRead_eq (a : Word) (s : State) : rawRead a s = (s.mem.read a, s) := rfl

/-- A mapped read of any address but KBSR's has no side effect (rules R46, R50). -/
theorem memRead_of_ne {a : Word} (s : State) (h : a ≠ kbsrAddr) :
    memRead a s = (s.mem.read a, s) := by simp [memRead, h]

theorem memRead_kbsr (s : State) :
    memRead kbsrAddr s = ((pollKeyboard s).mem.read kbsrAddr, pollKeyboard s) := by simp [memRead]

theorem devicesOnly_memRead (a : Word) (s : State) : DevicesOnly s (memRead a s).2 := by
  by_cases h : a = kbsrAddr
  · subst h; rw [memRead_kbsr]; exact devicesOnly_pollKeyboard s
  · rw [memRead_of_ne s h]; exact .refl s

theorem devicesOnly_stringRead (a : Word) (s : State) : DevicesOnly s (stringRead a s).2 := by
  unfold stringRead
  split
  · exact devicesOnly_memRead a s
  · exact .refl s

/-- A raw string read has no side effect (rules R47, R49). -/
theorem stringRead_raw {s : State} (a : Word) (h : s.params.trapReadsMapped = false) :
    stringRead a s = (s.mem.read a, s) := by simp [stringRead, h]

@[simp] theorem memWrite_mem (a v : Word) (s : State) : (memWrite a v s).mem = s.mem.write a v := rfl
@[simp] theorem memWrite_regs (a v : Word) (s : State) : (memWrite a v s).regs = s.regs := rfl
@[simp] theorem memWrite_readReg (a v : Word) (s : State) (r : Reg) :
    (memWrite a v s).readReg r = s.readReg r := rfl
@[simp] theorem memWrite_pc (a v : Word) (s : State) : (memWrite a v s).pc = s.pc := rfl
@[simp] theorem memWrite_cond (a v : Word) (s : State) : (memWrite a v s).cond = s.cond := rfl
@[simp] theorem memWrite_runState (a v : Word) (s : State) :
    (memWrite a v s).runState = s.runState := rfl
@[simp] theorem memWrite_params (a v : Word) (s : State) : (memWrite a v s).params = s.params := rfl
@[simp] theorem memWrite_console (a v : Word) (s : State) :
    (memWrite a v s).console = s.console := rfl

/-! ### Fetch (rule R91) -/

@[simp] theorem fetch_fst (s : State) : (fetch s).1 = (memRead s.pc s).1 := rfl
@[simp] theorem fetch_snd (s : State) : (fetch s).2 = (memRead s.pc s).2.setPc (s.pc + 1) := rfl

theorem fetch_of_ne {s : State} (h : s.pc ≠ kbsrAddr) :
    fetch s = (s.mem.read s.pc, s.setPc (s.pc + 1)) := by simp [fetch, memRead_of_ne s h]

/-! ### Trap entry, blocking reads and strings -/

theorem trapEntry_cases (s : State) :
    (s.params.trapLinksR7 = true ∧ trapEntry s = s.writeReg .r7 s.pc) ∨
    (s.params.trapLinksR7 = false ∧ trapEntry s = s) := by
  cases h : s.params.trapLinksR7 <;> simp [trapEntry, h]

@[simp] theorem trapEntry_pc (s : State) : (trapEntry s).pc = s.pc := by
  unfold trapEntry; split <;> rfl
@[simp] theorem trapEntry_cond (s : State) : (trapEntry s).cond = s.cond := by
  unfold trapEntry; split <;> rfl
@[simp] theorem trapEntry_mem (s : State) : (trapEntry s).mem = s.mem := by
  unfold trapEntry; split <;> rfl
@[simp] theorem trapEntry_runState (s : State) : (trapEntry s).runState = s.runState := by
  unfold trapEntry; split <;> rfl
@[simp] theorem trapEntry_params (s : State) : (trapEntry s).params = s.params := by
  unfold trapEntry; split <;> rfl
@[simp] theorem trapEntry_console (s : State) : (trapEntry s).console = s.console := by
  unfold trapEntry; split <;> rfl

theorem trapEntry_readReg_ne (s : State) {r : Reg} (h : r ≠ .r7) :
    (trapEntry s).readReg r = s.readReg r := by
  rcases trapEntry_cases s with ⟨-, e⟩ | ⟨-, e⟩ <;> rw [e]
  exact s.readReg_writeReg_ne _ h

/-- The three ends of a trap that reads a character (rules R54, R142, R145). -/
theorem readThen_cases (s : State) (k : Byte → State → StepResult) :
    (∃ b c, s.console.takeByte = some (b, c) ∧ readThen s k = k b (s.setConsole c)) ∨
    (s.console.input = [] ∧ s.console.tail = .endOfInput ∧
      readThen s k = raiseFault .endOfInput (s.setConsole (s.console.log .readEof))) ∨
    (s.console.input = [] ∧ s.console.tail = .neverSupplied ∧
      readThen s k = .fault .readNeverReturns) := by
  rcases s.console.readCharBlocking_cases with ⟨b, c, h1, h2⟩ | ⟨h1, h2, h3⟩ | ⟨h1, h2, h3⟩
  · exact .inl ⟨b, c, h1, by simp [readThen, h2]⟩
  · exact .inr (.inl ⟨h1, h2, by simp [readThen, h3]⟩)
  · exact .inr (.inr ⟨h1, h2, by simp [readThen, h3]⟩)

theorem devicesOnly_scanString (chars : Word → List Byte) (n : Nat) (a : Word) (s : State) :
    DevicesOnly s (scanString chars n a s).2 := by
  induction n generalizing a s with
  | zero => exact .refl s
  | succ n ih =>
    have h := devicesOnly_stringRead a s
    unfold scanString
    simp only
    split
    · exact h
    · exact (h.trans (devicesOnly_writeBytes _ _)).trans (ih _ _)

@[simp] theorem truncateOutput_regs (n : Nat) (s : State) : (truncateOutput n s).regs = s.regs := rfl
@[simp] theorem truncateOutput_pc (n : Nat) (s : State) : (truncateOutput n s).pc = s.pc := rfl
@[simp] theorem truncateOutput_cond (n : Nat) (s : State) : (truncateOutput n s).cond = s.cond := rfl
@[simp] theorem truncateOutput_mem (n : Nat) (s : State) : (truncateOutput n s).mem = s.mem := rfl
@[simp] theorem truncateOutput_runState (n : Nat) (s : State) :
    (truncateOutput n s).runState = s.runState := rfl
@[simp] theorem truncateOutput_params (n : Nat) (s : State) :
    (truncateOutput n s).params = s.params := rfl

/-- The two ends of PUTS and PUTSP (rules R144, R146). -/
theorem putString_cases (chars : Word → List Byte) (s : State) :
    (∃ t, scanString chars memorySize (s.readReg .r0) s = (true, t) ∧
      putString chars s = .next t.flush) ∨
    (∃ t, scanString chars memorySize (s.readReg .r0) s = (false, t) ∧
      putString chars s =
        raiseFault .unterminatedString (truncateOutput s.console.events.length t)) := by
  rcases h : scanString chars memorySize (s.readReg .r0) s with ⟨_ | _, t⟩
  · exact .inr ⟨t, rfl, by simp [putString, h]⟩
  · exact .inl ⟨t, rfl, by simp [putString, h]⟩

/-- Dropping writes drops nothing else, and keeps the first ones. -/
theorem filterMap_keepWrites (n : Nat) (es : List ConsoleEvent) :
    (keepWrites n es).filterMap ConsoleEvent.written? =
      (es.filterMap ConsoleEvent.written?).take n := by
  induction es generalizing n with
  | nil => cases n <;> simp [keepWrites]
  | cons e es ih => cases e <;> cases n <;> simp [keepWrites, List.filterMap_cons, ih]

/-! ### The condition code (rules R94, R110) -/

theorem flagMatches_condOf (v : Word) : FlagMatches (condOf v) v := by
  have hm : v.msb = decide (0x8000 ≤ v.toNat) := BitVec.msb_eq_decide v
  by_cases h1 : 0x8000 ≤ v.toNat
  · have : condOf v = .negative := by simp [condOf, hm, h1]
    simp only [FlagMatches, this]
    simp; omega
  · by_cases h2 : v.toNat = 0
    · have : condOf v = .zero := by simp [BitVec.eq_of_toNat_eq (y := 0) h2]; decide
      simp only [FlagMatches, this]
      simp; omega
    · have hz : v ≠ 0 := fun h => h2 (by rw [h]; rfl)
      have : condOf v = .positive := by
        unfold condOf; rw [hm, if_neg (by simpa using h1), if_neg hz]
      simp only [FlagMatches, this]
      simp; omega

theorem condOf_ne_noFlag (v : Word) : condOf v ≠ .noFlag := by
  unfold condOf; split <;> [decide; split <;> decide]

/-! ### The ends of a step -/

@[simp] theorem raiseFault_eq (r : FaultReason) (s : State) :
    raiseFault r s = .next (s.setRunState (.faulted r)) := rfl

@[simp] theorem haltMachine_eq (s : State) : haltMachine s = .next (s.setRunState .halted) := rfl

end Sys2Proof.Machine
end

