-- ==== Sys2Proof/Laws/PerInstr.lean ====
section
/-! SUPPORT. Laws/PerInstr.lean: facts about each instruction as syntax. EncodesInItsRow: the canonical
word lies in the instruction's row of the opcode table (rules R79, R81, R86). -/

/-- The instruction's canonical word has the fixed bits of its row. -/
def Sys2Proof.Laws.EncodesInItsRow.Statement (i : Sys2Proof.Instr) : Prop :=
  Sys2Proof.encode i &&& i.row.mask = i.row.value

namespace Sys2Proof.Laws

open Sys2Proof

theorem EncodesInItsRow.addReg (d : Reg) (a : Reg) (b : Reg) : EncodesInItsRow.Statement (.addReg d a b) := by
  simp only [EncodesInItsRow.Statement, encode, Instr.row]
  ext i hi
  simp only [BitVec.getElem_and, BitVec.getElem_append]
  interval_cases i <;> simp

theorem EncodesInItsRow.addImm (d : Reg) (a : Reg) (i : BitVec 5) : EncodesInItsRow.Statement (.addImm d a i) := by
  simp only [EncodesInItsRow.Statement, encode, Instr.row]
  ext i hi
  simp only [BitVec.getElem_and, BitVec.getElem_append]
  interval_cases i <;> simp

theorem EncodesInItsRow.andReg (d : Reg) (a : Reg) (b : Reg) : EncodesInItsRow.Statement (.andReg d a b) := by
  simp only [EncodesInItsRow.Statement, encode, Instr.row]
  ext i hi
  simp only [BitVec.getElem_and, BitVec.getElem_append]
  interval_cases i <;> simp

theorem EncodesInItsRow.andImm (d : Reg) (a : Reg) (i : BitVec 5) : EncodesInItsRow.Statement (.andImm d a i) := by
  simp only [EncodesInItsRow.Statement, encode, Instr.row]
  ext i hi
  simp only [BitVec.getElem_and, BitVec.getElem_append]
  interval_cases i <;> simp

theorem EncodesInItsRow.notReg (d : Reg) (a : Reg) : EncodesInItsRow.Statement (.notReg d a) := by
  simp only [EncodesInItsRow.Statement, encode, Instr.row]
  ext i hi
  simp only [BitVec.getElem_and, BitVec.getElem_append]
  interval_cases i <;> simp

theorem EncodesInItsRow.br (n : Bool) (z : Bool) (p : Bool) (o : BitVec 9) : EncodesInItsRow.Statement (.br n z p o) := by
  simp only [EncodesInItsRow.Statement, encode, Instr.row]
  ext i hi
  simp only [BitVec.getElem_and, BitVec.getElem_append]
  interval_cases i <;> simp

theorem EncodesInItsRow.jmp (a : Reg) : EncodesInItsRow.Statement (.jmp a) := by
  simp only [EncodesInItsRow.Statement, encode, Instr.row]
  ext i hi
  simp only [BitVec.getElem_and, BitVec.getElem_append]
  interval_cases i <;> simp

theorem EncodesInItsRow.jsr (o : BitVec 11) : EncodesInItsRow.Statement (.jsr o) := by
  simp only [EncodesInItsRow.Statement, encode, Instr.row]
  ext i hi
  simp only [BitVec.getElem_and, BitVec.getElem_append]
  interval_cases i <;> simp

theorem EncodesInItsRow.jsrr (a : Reg) : EncodesInItsRow.Statement (.jsrr a) := by
  simp only [EncodesInItsRow.Statement, encode, Instr.row]
  ext i hi
  simp only [BitVec.getElem_and, BitVec.getElem_append]
  interval_cases i <;> simp

theorem EncodesInItsRow.ld (d : Reg) (o : BitVec 9) : EncodesInItsRow.Statement (.ld d o) := by
  simp only [EncodesInItsRow.Statement, encode, Instr.row]
  ext i hi
  simp only [BitVec.getElem_and, BitVec.getElem_append]
  interval_cases i <;> simp

theorem EncodesInItsRow.ldi (d : Reg) (o : BitVec 9) : EncodesInItsRow.Statement (.ldi d o) := by
  simp only [EncodesInItsRow.Statement, encode, Instr.row]
  ext i hi
  simp only [BitVec.getElem_and, BitVec.getElem_append]
  interval_cases i <;> simp

theorem EncodesInItsRow.ldr (d : Reg) (a : Reg) (o : BitVec 6) : EncodesInItsRow.Statement (.ldr d a o) := by
  simp only [EncodesInItsRow.Statement, encode, Instr.row]
  ext i hi
  simp only [BitVec.getElem_and, BitVec.getElem_append]
  interval_cases i <;> simp

theorem EncodesInItsRow.lea (d : Reg) (o : BitVec 9) : EncodesInItsRow.Statement (.lea d o) := by
  simp only [EncodesInItsRow.Statement, encode, Instr.row]
  ext i hi
  simp only [BitVec.getElem_and, BitVec.getElem_append]
  interval_cases i <;> simp

theorem EncodesInItsRow.st (r : Reg) (o : BitVec 9) : EncodesInItsRow.Statement (.st r o) := by
  simp only [EncodesInItsRow.Statement, encode, Instr.row]
  ext i hi
  simp only [BitVec.getElem_and, BitVec.getElem_append]
  interval_cases i <;> simp

theorem EncodesInItsRow.sti (r : Reg) (o : BitVec 9) : EncodesInItsRow.Statement (.sti r o) := by
  simp only [EncodesInItsRow.Statement, encode, Instr.row]
  ext i hi
  simp only [BitVec.getElem_and, BitVec.getElem_append]
  interval_cases i <;> simp

theorem EncodesInItsRow.str (r : Reg) (a : Reg) (o : BitVec 6) : EncodesInItsRow.Statement (.str r a o) := by
  simp only [EncodesInItsRow.Statement, encode, Instr.row]
  ext i hi
  simp only [BitVec.getElem_and, BitVec.getElem_append]
  interval_cases i <;> simp

theorem EncodesInItsRow.rti : EncodesInItsRow.Statement .rti := by
  rfl

theorem EncodesInItsRow.res : EncodesInItsRow.Statement .res := by
  rfl

theorem EncodesInItsRow.trapGetc : EncodesInItsRow.Statement .trapGetc := by
  rfl

theorem EncodesInItsRow.trapOut : EncodesInItsRow.Statement .trapOut := by
  rfl

theorem EncodesInItsRow.trapPuts : EncodesInItsRow.Statement .trapPuts := by
  rfl

theorem EncodesInItsRow.trapIn : EncodesInItsRow.Statement .trapIn := by
  rfl

theorem EncodesInItsRow.trapPutsp : EncodesInItsRow.Statement .trapPutsp := by
  rfl

theorem EncodesInItsRow.trapHalt : EncodesInItsRow.Statement .trapHalt := by
  rfl

theorem EncodesInItsRow.trapBadvec (v : BitVec 8) : EncodesInItsRow.Statement (.trapBadvec v) := by
  simp only [EncodesInItsRow.Statement, encode, Instr.row]
  ext i hi
  simp only [BitVec.getElem_and, BitVec.getElem_append]
  interval_cases i <;> simp

end Sys2Proof.Laws
end

