-- ==== Sys2Proof/Laws/Step.lean ====
section
/-! SUPPORT. Laws/Step.lean: what a step is, said once. -/

namespace Sys2Proof.Machine

/-- A step that answers a next state was taken by a running machine, and is the arm of the fetched word
on the state after the fetch (rules R90 to R92). -/
theorem step_next {s t : State} (h : step s = .next t) :
    s.runState = .running ∧ exec (decode (fetch s).1) (fetch s).2 = .next t := by
  unfold step at h
  cases hr : s.runState <;> rw [hr] at h <;> simp at h
  exact ⟨rfl, by simpa using h⟩

theorem step_of_running {s : State} (h : s.runState = .running) :
    step s = exec (decode (fetch s).1) (fetch s).2 := by simp [step, h]

theorem fetchPlace_ne_kbsr (s : State) : s.fetchPlace ≠ kbsrAddr := by
  unfold State.fetchPlace; split <;> [decide; assumption]

/-- A table word placed by `withFetchWord` is what the next step runs. -/
theorem step_withFetchWord (s : State) (nbits w : Nat) (h : s.Inv) :
    step (s.withFetchWord nbits w) =
      exec (decode (BitVec.ofNat 16 (w % 2 ^ nbits)))
        ((s.withFetchWord nbits w).setPc (s.fetchPlace + 1)) := by
  rw [step_of_running rfl, fetch_of_ne (fetchPlace_ne_kbsr s)]
  have : (s.withFetchWord nbits w).mem.read (s.withFetchWord nbits w).pc =
      BitVec.ofNat 16 (w % 2 ^ nbits) := Memory.read_write_same _ _ _ h
  rw [this]
  rfl

end Sys2Proof.Machine
end

