-- ==== Sys2Proof/Tests/Slice0.lean ====
section
/-! SUPPORT. Tests/Slice0.lean: the smoke test of WellFormed, decoded words, one-step vectors of
95_test_vectors.md, and a witness for the hypotheses of each statement. -/

namespace Sys2Proof.Tests

open Sys2Proof Sys2Proof.Machine

/-! ### WellFormed: each ill-formed term is refused -/

theorem test_wf_refuses_first_vector : (Instr.trapBadvec 0x20).wf = false := by decide
theorem test_wf_refuses_last_vector : (Instr.trapBadvec 0x25).wf = false := by decide
theorem test_wf_accepts_neighbours :
    (Instr.trapBadvec 0x1F).wf = true ∧ (Instr.trapBadvec 0x26).wf = true := by decide

/-! ### Words written out bit by bit from the patterns of rule R79 -/

theorem test_decode_addReg : decode 0b0001001010000011 = .addReg .r1 .r2 .r3 := by decide
theorem test_decode_addReg_ignored : decode 0b0001001010011011 = .addReg .r1 .r2 .r3 := by decide
theorem test_decode_addImm : decode 0b0001001010111101 = .addImm .r1 .r2 0b11101 := by decide
theorem test_decode_andReg : decode 0b0101011001000010 = .andReg .r3 .r1 .r2 := by decide
theorem test_decode_andImm : decode 0b0101010010111111 = .andImm .r2 .r2 0b11111 := by decide
theorem test_decode_not : decode 0b1001100101111111 = .notReg .r4 .r5 := by decide
theorem test_decode_not_ignored : decode 0b1001100101000000 = .notReg .r4 .r5 := by decide
theorem test_decode_br : decode 0b0000010000000101 = .br false true false 5 := by decide
theorem test_decode_br_np : decode 0b0000101111111111 = .br true false true 0x1FF := by decide
theorem test_decode_nop : decode 0x0000 = .nop := by decide
theorem test_decode_jmp : decode 0b1100000010000000 = .jmp .r2 := by decide
theorem test_decode_ret : decode 0xC1C0 = .ret := by decide
theorem test_decode_jsr : decode 0b0100110000000000 = .jsr 0b10000000000 := by decide
theorem test_decode_jsrr : decode 0b0100000111000000 = .jsrr .r7 := by decide
theorem test_decode_ld : decode 0b0010010000000100 = .ld .r2 4 := by decide
theorem test_decode_ldi : decode 0b1010011000000100 = .ldi .r3 4 := by decide
theorem test_decode_ldr : decode 0b0110100101100000 = .ldr .r4 .r5 0b100000 := by decide
theorem test_decode_lea : decode 0b1110001111111110 = .lea .r1 0b111111110 := by decide
theorem test_decode_st : decode 0b0011011111111011 = .st .r3 0b111111011 := by decide
theorem test_decode_sti : decode 0b1011100000000010 = .sti .r4 2 := by decide
theorem test_decode_str : decode 0b0111110001011111 = .str .r6 .r1 0b011111 := by decide
theorem test_decode_rti : decode 0b1000111111111111 = .rti := by decide
theorem test_decode_res : decode 0b1101000000000000 = .res := by decide
theorem test_decode_traps :
    [0xF020, 0xF021, 0xF022, 0xF023, 0xF024, 0xFF25, 0xF026, 0xF000].map decode =
      [.trapGetc, .trapOut, .trapPuts, .trapIn, .trapPutsp, .trapHalt,
        .trapBadvec 0x26, .trapBadvec 0x00] := by decide

/-- The canonical words of rules R85 and R86. -/
theorem test_encode_canonical :
    [Instr.ret, .nop, .trapGetc, .trapHalt, .notReg .r4 .r5, .addImm .r1 .r2 0x1D].map encode =
      [0xC1C0, 0x0000, 0xF020, 0xF025, 0x997F, 0x12BD] := by decide

/-- L1-1 and L1-2. -/
theorem test_primitives :
    setBit 0x1234 0 = some 0x1235 ∧ clearBit 0x1234 4 = some 0x1224 ∧
    signExtend 0x10 5 = some 0xFFF0 ∧ signExtend 0x3FF 11 = some 0x03FF ∧
    field 0x12BD 9 3 = some 1 ∧ bit 0x8000 16 = none ∧ signExtend 0x20 5 = none := by decide

/-! ### One step -/

/-- A console at end of input. -/
def noInput : Console := ⟨[], .endOfInput, [], 0, []⟩

/-- A console with one byte to read and the answer of the next poll. -/
def oneByte (b : Byte) (ready : Bool) : Console := ⟨[b], .endOfInput, [ready], 0, []⟩

/-- The reset state on a console, with some cells and registers written. -/
def given (c : Console) (cells : List (Word × Word)) (regs : List (Reg × Word)) : State :=
  let s := cells.foldl (fun s p => memWrite p.1 p.2 s) (State.create Params.recommended c)
  regs.foldl (fun s p => s.writeReg p.1 p.2) s

/-- The next state of a step, if there is one. -/
def nextOf : StepResult → Option State
  | .next s => some s
  | .fault _ => none
  | .refused _ => none

/-- One step, and what a vector shows of its end: a register, COND, PC. -/
def shows (r : Reg) (s : State) : Option (Word × Cond × Word) :=
  (nextOf (step s)).map fun t => (t.readReg r, t.cond, t.pc)

theorem test_addReg_overflow :
    shows .r1 (given noInput [(0x3000, 0x1283)] [(.r2, 0x7FFF), (.r3, 0x0001)]) =
      some (0x8000, .negative, 0x3001) := by decide
theorem test_addImm :
    shows .r1 (given noInput [(0x3000, 0x12BD)] [(.r2, 10)]) =
      some (7, .positive, 0x3001) := by decide
theorem test_andReg :
    shows .r3 (given noInput [(0x3000, 0x5642)] [(.r1, 0xF0F0), (.r2, 0x0FF0)]) =
      some (0x00F0, .positive, 0x3001) := by decide
theorem test_andImm_negative :
    shows .r2 (given noInput [(0x3000, 0x54BF)] [(.r2, 0x8001)]) =
      some (0x8001, .negative, 0x3001) := by decide
theorem test_not :
    shows .r4 (given noInput [(0x3000, 0x9940)] [(.r5, 0xFFFF)]) =
      some (0x0000, .zero, 0x3001) := by decide
theorem test_br_taken :
    shows .r0 (given noInput [(0x3000, 0x0405)] []) = some (0, .zero, 0x3006) := by decide
theorem test_br_not_taken :
    shows .r0 (given noInput [(0x3000, 0x0A05)] []) = some (0, .zero, 0x3001) := by decide
theorem test_jmp :
    shows .r2 (given noInput [(0x3000, 0xC080)] [(.r2, 0x4000)]) =
      some (0x4000, .zero, 0x4000) := by decide
theorem test_jsr_negative :
    shows .r7 (given noInput [(0x3000, 0x4C00)] []) = some (0x3001, .zero, 0x2C01) := by decide
theorem test_jsrr_r7 :
    shows .r7 (given noInput [(0x3000, 0x41C0)] [(.r7, 0x1234)]) =
      some (0x3001, .zero, 0x3001) := by decide
theorem test_ld :
    shows .r2 (given noInput [(0x3000, 0x2404), (0x3005, 0x8000)] []) =
      some (0x8000, .negative, 0x3001) := by decide
theorem test_ldi_polls :
    shows .r3 (given (oneByte 0x41 true) [(0x3000, 0xA604), (0x3005, 0xFE00)] []) =
      some (0x8000, .negative, 0x3001) := by decide
theorem test_ldr_same_register :
    shows .r2 (given noInput [(0x3000, 0x6480), (0x4000, 7)] [(.r2, 0x4000)]) =
      some (7, .positive, 0x3001) := by decide
theorem test_ldr_kbsr_no_input :
    shows .r1 (given (oneByte 0x41 false) [(0x3000, 0x6340)] [(.r5, 0xFE00)]) =
      some (0, .zero, 0x3001) := by decide
theorem test_lea :
    shows .r1 (given noInput [(0x3000, 0xE3FE)] []) = some (0x2FFF, .positive, 0x3001) := by decide

/-- One step, and the cell it leaves at an address. -/
def cellAfter (a : Word) (s : State) : Option Word := (nextOf (step s)).map fun t => t.mem.read a

theorem test_st :
    cellAfter 0x2FFC (given noInput [(0x3000, 0x37FB)] [(.r3, 0xBEEF)]) = some 0xBEEF := by decide
theorem test_sti :
    cellAfter 0x4000 (given noInput [(0x3000, 0xB802), (0x3003, 0x4000)] [(.r4, 7)]) =
      some 7 := by decide
theorem test_str :
    cellAfter 0x401F (given noInput [(0x3000, 0x7C5F)] [(.r1, 0x4000), (.r6, 0x1111)]) =
      some 0x1111 := by decide
theorem test_kbdr_after_poll :
    cellAfter 0xFE02 (given (oneByte 0x71 true) [(0x3000, 0x6340)] [(.r5, 0xFE00)]) =
      some 0x0071 := by decide

/-- One step, and the run state, output and PC at its end. -/
def ends (s : State) : Option (RunState × List Byte × Word) :=
  (nextOf (step s)).map fun t => (t.runState, t.console.output, t.pc)

theorem test_getc :
    shows .r0 (given (oneByte 0xE9 false) [(0x3000, 0xF020)] []) =
      some (0x00E9, .positive, 0x3001) := by decide
theorem test_getc_end_of_input :
    ends (given noInput [(0x3000, 0xF020)] []) =
      some (.faulted .endOfInput, [], 0x3001) := by decide
theorem test_out :
    ends (given noInput [(0x3000, 0xF021)] [(.r0, 0x1241)]) =
      some (.running, [0x41], 0x3001) := by decide
theorem test_puts_wraps :
    ends (given noInput [(0x3000, 0xF022), (0xFFFF, 0x4161), (0x0000, 0x62)] [(.r0, 0xFFFF)]) =
      some (.running, [0x61, 0x62], 0x3001) := by decide
theorem test_in :
    ends (given (oneByte 0x79 false) [(0x3000, 0xF023)] []) =
      some (.running, [0x50, 0x79], 0x3001) := by decide
theorem test_in_end_of_input :
    ends (given noInput [(0x3000, 0xF023)] []) =
      some (.faulted .endOfInput, [0x50], 0x3001) := by decide
theorem test_putsp :
    ends (given noInput [(0x3000, 0xF024), (0x4000, 0x6548), (0x4001, 0x4100), (0x4002, 0x6C)]
      [(.r0, 0x4000)]) = some (.running, [0x48, 0x65, 0x00, 0x41, 0x6C], 0x3001) := by decide
theorem test_halt :
    ends (given noInput [(0x3000, 0xFF25)] []) = some (.halted, [0x48], 0x3001) := by decide
theorem test_badvec :
    ends (given noInput [(0x3000, 0xF0A0)] []) =
      some (.faulted (.unknownTrapVector 0xA0), [], 0x3001) := by decide
theorem test_rti :
    ends (given noInput [(0x3000, 0x8FFF)] []) =
      some (.faulted (.reservedOpcode .rti), [], 0x3001) := by decide
theorem test_res :
    ends (given noInput [(0x3000, 0xD000)] []) =
      some (.faulted (.reservedOpcode .res), [], 0x3001) := by decide

/-- L2-F-1 and L2-F-2: a fetch from KBSR. -/
theorem test_fetch_from_kbsr :
    ends ((given (oneByte 0x7A false) [(0xFE00, 0x1234)] []).setPc 0xFE00) =
      some (.running, [], 0xFE01) ∧
    ends ((given (oneByte 0x7A true) [(0xFE00, 0x1234)] []).setPc 0xFE00) =
      some (.faulted (.reservedOpcode .rti), [], 0xFE01) := by decide

/-- The parameters TRAP_READS_MAPPED and TRAP_LINKS_R7 set. -/
def mapped (s : State) : State :=
  { s with params := { s.params with trapReadsMapped := true, trapLinksR7 := true } }

/-- L2-T-13 and L2-T-23. -/
theorem test_puts_mapped_and_linked :
    ends (mapped (given (oneByte 0x6B true) [(0x3000, 0xF022), (0xFE00, 0x41)] [(.r0, 0xFE00)])) =
      some (.running, [0x00], 0x3001) ∧
    shows .r7 (mapped (given noInput [(0x3000, 0xF021)] [])) =
      some (0x3001, .zero, 0x3001) := by decide

/-- The object file of P6's variant: the second word would land past 0xFFFF and is dropped. -/
theorem test_image_truncates :
    (loadImage (State.create Params.recommended noInput) [0xFF, 0xFF, 0x12, 0x61, 0x80, 0x00]).map
      (fun s => (s.mem.read 0xFFFF, s.mem.read 0x0000, s.pc)) =
      some (0x1261, 0x0000, 0x3000) := by decide
theorem test_odd_image_is_none :
    loadImage State.reset [0x30, 0x00, 0x50] = none ∧ loadImage State.reset [] = none := by decide

/-- The host's check, on the first and last rows of the table. -/
theorem test_placed_words :
    decodeTableWord 16 0x1283 = some (.addReg .r1 .r2 .r3) ∧
    (nextOf (step (State.reset.withFetchWord 16 0xF025))).map (·.runState) = some .halted ∧
    (nextOf (step (State.reset.withFetchWord 16 0x1261))).map (·.readReg .r1) = some 1 := by decide

/-! ### Witnesses: a state and operands that meet a statement's hypotheses, clause by clause -/

/-- A running state in canonical form with a word at PC and one byte to read. -/
def ready (w : Word) : State := given (oneByte 0x41 true) [(0x3000, w)] []

theorem witness_BitReadsTheNumberedBit :
    bit 0x8000 15 = some 1 ∧ bit 0x8000 0 = some 0 ∧ bit 0x8000 16 = none := by decide
theorem witness_SetAndClearBitChangeOneBit :
    setBit 0 15 = some 0x8000 ∧ clearBit 0xFFFF 0 = some 0xFFFE ∧ (15 : Nat) ≠ 0 := by decide
theorem witness_FieldIsShiftThenMask :
    field 0xFFFF 15 15 = some 1 ∧ field 0xFFFF 15 0 = some 0 ∧ field 0xFFFF 16 0 = none ∧
    field 0xFFFF 0 16 = none := by decide
theorem witness_SignExtendKeepsTheValueAndSignTestsReadBit15 :
    signExtend 1 1 = some 0xFFFF ∧ signExtend 0x3FFF 15 = some 0x3FFF ∧
    signExtend 0x4000 15 = some 0xC000 ∧ signExtend 0x8000 15 = none ∧
    signExtend 0 0 = none ∧ isPositive 0 = true ∧ isNegative 0x8000 = true := by decide
theorem witness_OperandExtensionIsThePrimitive :
    signExtend ((1 : BitVec 1).setWidth 16) 1 = some (sext (1 : BitVec 1)) ∧
    signExtend ((0x4000 : BitVec 15).setWidth 16) 15 = some (sext (0x4000 : BitVec 15)) := by decide
theorem witness_EveryWordDecodesToItsOneRow :
    Instr.trapHalt.wf = true ∧ (0xFF25 : Word) &&& Instr.trapHalt.row.mask = Instr.trapHalt.row.value ∧
    (0xFF25 : Word) &&& (Instr.trapBadvec 0).row.mask = (Instr.trapBadvec 0).row.value := by decide
theorem witness_DecodeAfterEncodeReturnsTheInstruction :
    (Instr.trapBadvec 0x26).wf = true ∧ decode (encode (.trapBadvec 0x26)) = .trapBadvec 0x26 ∧
    decode (encode (.jsr 0x7FF)) = .jsr 0x7FF := by decide
theorem witness_ImageWordsLandFromTheOrigin :
    (State.create Params.recommended noInput).Inv ∧
    imageWords [0xFF, 0xFE, 0, 1, 0, 2, 0, 3] = some [0xFFFE, 1, 2, 3] ∧
    imageWords [0x12, 0x34] = some [0x1234] ∧
    ([1, 2, 3] : List Word)[1]? = some 2 ∧ (0xFFFE : Word).toNat + 1 ≤ 0xFFFF ∧
    (0xFFFD : Word).toNat < (0xFFFE : Word).toNat := by decide
theorem witness_ImageWordsLandFromTheOrigin_above :
    (0x3000 : Word).toNat + 1 ≤ (0x3001 : Word).toNat := by decide
theorem witness_RunLoopStopsAtTheEnd :
    State.reset.runState = .running ∧
    (State.reset.setRunState .halted).runState ≠ .running ∧
    (State.reset.setRunState (.faulted .endOfInput)).runState ≠ .running := by decide
theorem witness_UnloadedMachineSlidesThroughNops :
    noInput.input = [] ∧ noInput.tail ≠ .unknown ∧
    ((given noInput [] []).setPc 0xFE00).runState = .running ∧
    ((given noInput [] []).setPc 0xFE00).mem = Memory.zeroed ∧
    ((given noInput [] []).setPc 0xFE00).console = noInput := by decide
theorem witness_MemoriesThatReadAlikeAreEqual :
    (ready 0x1283).mem.wf = true ∧ Memory.zeroed.wf = true ∧
    ∀ a, (Memory.zeroed.write 0 0).read a = Memory.zeroed.read a :=
  ⟨by decide, by decide, fun _ => rfl⟩
theorem witness_MappedReadOfKbsrPolls :
    (ready 0).Inv ∧ (memRead 0xFE00 (ready 0)).1 = 0x8000 ∧
    (memRead 0xFE00 (given (oneByte 0x41 false) [] [])).1 = 0x0000 := by decide
theorem witness_PollAnswersTheDrawIfInputIsPending :
    (ready 0).Inv ∧ (ready 0).console.polls = [true] ∧ (ready 0).console.input = [0x41] ∧
    (given noInput [] []).Inv ∧ (given noInput [] []).console.input = [] ∧
    (given noInput [] []).console.tail ≠ .unknown := by decide
theorem witness_StoreIsSeenByTheNextFetch :
    (ready 0).Inv ∧ (ready 0).runState = .running ∧ (ready 0).pc ≠ kbsrAddr := by decide
theorem witness_ConsoleCallsFollowTheStreams :
    (oneByte 0x41 true).input = [0x41] ∧ noInput.input = [] ∧ noInput.tail = .endOfInput ∧
    ({ noInput with tail := .neverSupplied } : Console).tail = .neverSupplied ∧
    Console.hosts.input = [] ∧ Console.hosts.tail = .unknown := by decide
theorem witness_StepRunsTheFetchedInstruction :
    State.reset.runState = .running ∧ State.reset.pc ≠ kbsrAddr := by decide
theorem witness_FetchFromKbsrPolls :
    ((ready 0).setPc 0xFE00).Inv ∧ ((ready 0).setPc 0xFE00).runState = .running ∧
    ((ready 0).setPc 0xFE00).pc = 0xFE00 := by decide
theorem witness_NoStepAfterTheEnd :
    (State.reset.setRunState .halted).runState = .halted ∧
    (State.reset.setRunState (.faulted .endOfInput)).runState = .faulted .endOfInput := by decide
theorem witness_BranchIffTheFlagIsRequested :
    ((false = true ∧ State.reset.cond = .negative) ∨ (true = true ∧ State.reset.cond = .zero) ∨
      (false = true ∧ State.reset.cond = .positive)) ∧
    ¬((true = true ∧ State.reset.cond = .negative) ∨ (false = true ∧ State.reset.cond = .zero) ∨
      (true = true ∧ State.reset.cond = .positive)) := by decide
theorem witness_ReturnUndoesTheCall :
    ((∃ off, Instr.jsr 0x400 = .jsr off) ∨ ∃ base, Instr.jsr 0x400 = .jsrr base) ∧
    ((∃ off, Instr.jsrr .r7 = .jsr off) ∨ ∃ base, Instr.jsrr .r7 = .jsrr base) :=
  ⟨.inl ⟨_, rfl⟩, .inr ⟨_, rfl⟩⟩
/-- LD, LDI and STI with the address KBSR: from PC 0xFDFF + 1 with offset 0. -/
theorem witness_LoadsAtKbsr :
    BitVec.ofInt 16 (((ready 0).setPc 0xFE00).pc.toNat + (0 : BitVec 9).toInt) = kbsrAddr ∧
    BitVec.ofInt 16 ((ready 0).pc.toNat + (0 : BitVec 9).toInt) ≠ kbsrAddr ∧
    ((ready 0).setPc 0xFE00).Inv := by decide
theorem witness_LdrAtKbsr :
    BitVec.ofInt 16 (((ready 0).writeReg .r5 0xFE20).readReg .r5 |>.toNat) +
      BitVec.ofInt 16 (0x20 : BitVec 6).toInt = kbsrAddr := by decide
theorem witness_StoredAt : (ready 0).Inv := by decide
theorem witness_GetcReadsOneCharacter :
    (ready 0).console.hasInput = true ∧ State.reset.console.hasInput = true := by decide
theorem witness_InPromptsReadsAndEchoes :
    (ready 0).console.hasInput = true ∧ State.reset.console.hasInput = true := by decide

/-- "Hi" at 0x4000, as in L1-7. -/
def hi : State :=
  given noInput [(0x4000, 0x48), (0x4001, 0x69)] [(.r0, 0x4000)]

theorem cells_hi : cellsFrom hi.mem (hi.readReg .r0) 2 = [0x48, 0x69] ∧
    hi.mem.read (hi.readReg .r0 + BitVec.ofNat 16 2) = 0 := by decide

theorem stringAt_hi : StringAt hi.mem (hi.readReg .r0) 2 :=
  And.intro (show 2 < 65536 by omega) (by rw [cells_hi.1]; exact ⟨by simp, cells_hi.2⟩)

theorem stringAt_reset : StringAt State.reset.mem (State.reset.readReg .r0) 0 :=
  And.intro (show 0 < 65536 by omega) ⟨by simp [cellsFrom], rfl⟩

theorem plain_hi_mapped : StringReadsPlain (mapped hi) ((mapped hi).readReg .r0) 2 :=
  .inr fun k h => by
    interval_cases k <;> decide

theorem witness_PutsWritesTheString :
    StringAt hi.mem (hi.readReg .r0) 2 ∧ StringReadsPlain hi (hi.readReg .r0) 2 ∧
    StringReadsPlain (mapped hi) ((mapped hi).readReg .r0) 2 ∧
    StringAt State.reset.mem (State.reset.readReg .r0) 0 :=
  ⟨stringAt_hi, .inl rfl, plain_hi_mapped, stringAt_reset⟩
theorem witness_PutspWritesThePackedString :
    StringAt hi.mem (hi.readReg .r0) 2 ∧ StringReadsPlain hi (hi.readReg .r0) 2 :=
  ⟨stringAt_hi, .inl rfl⟩
theorem witness_StringTrapsWriteNoState :
    (Instr.trapPuts = .trapPuts ∨ Instr.trapPuts = .trapPutsp) ∧
    hi.params.trapReadsMapped = false ∧ (mapped hi).params.trapReadsMapped = true := by decide

/-- L2-T-12 and L2-T-13: a string at KBSR with 0x0041 stored there. -/
def atKbsr (c : Console) : State := mapped (given c [(0xFE00, 0x41)] [(.r0, 0xFE00)])

theorem witness_MappedStringReadOfKbsrPolls :
    (atKbsr noInput).Inv ∧ (atKbsr noInput).params.trapReadsMapped = true ∧
    (atKbsr noInput).readReg .r0 = kbsrAddr ∧ (atKbsr noInput).console.input = [] ∧
    (atKbsr noInput).console.tail ≠ .unknown ∧ (atKbsr (oneByte 0x6B true)).Inv ∧
    (atKbsr (oneByte 0x6B true)).console.input = [0x6B] ∧
    (atKbsr (oneByte 0x6B true)).console.polls = [true] ∧
    (atKbsr (oneByte 0x6B true)).readReg .r0 = kbsrAddr ∧
    (atKbsr (oneByte 0x6B true)).params.trapReadsMapped = true ∧
    (atKbsr (oneByte 0x6B true)).mem.read (kbsrAddr + 1) = 0 := by decide

theorem lookupCell_ones (l : List Cell) (a : Nat) (hv : ∀ c ∈ l, c.2 = 1) (hk : ∃ c ∈ l, c.1 = a) :
    lookupCell l a = 1 := by
  induction l with
  | nil => obtain ⟨c, hc, -⟩ := hk; simp at hc
  | cons c l ih =>
    unfold lookupCell
    split
    · exact hv c (by simp)
    · rename_i hne
      refine ih (fun d hd => hv d (by simp [hd])) ?_
      obtain ⟨d, hd, rfl⟩ := hk
      rcases List.mem_cons.mp hd with rfl | hd
      · exact absurd rfl hne
      · exact ⟨d, hd, rfl⟩

/-- A memory with no zero cell, as in L2-T-10. -/
def full : State := hi.setMem ⟨(List.range 65536).map fun k => (k, 1)⟩

theorem witness_UnterminatedStringFaults :
    full.params.trapReadsMapped = false ∧ (∀ a, full.mem.read a ≠ 0) ∧
    ((Instr.trapPuts = .trapPuts ∧ putsChars = putsChars) ∨
      (Instr.trapPuts = .trapPutsp ∧ putsChars = putspChars)) ∧
    ((Instr.trapPutsp = .trapPuts ∧ putspChars = putsChars) ∨
      (Instr.trapPutsp = .trapPutsp ∧ putspChars = putspChars)) := by
  refine ⟨rfl, fun a => ?_, .inl ⟨rfl, rfl⟩, .inr ⟨rfl, rfl⟩⟩
  have : full.mem.read a = 1 := lookupCell_ones _ _ (by simp [full]) ⟨(a.toNat, 1), by
    simp [full, a.isLt], rfl⟩
  rw [this]
  decide

theorem witness_EndOfInputFaults :
    hi.console.input = [] ∧ hi.console.tail = .endOfInput ∧
    ((Instr.trapGetc = .trapGetc ∧ ([] : List Byte) = []) ∨
      (Instr.trapGetc = .trapIn ∧ ([] : List Byte) = hi.params.inPrompt)) ∧
    ((Instr.trapIn = .trapGetc ∧ hi.params.inPrompt = []) ∨
      (Instr.trapIn = .trapIn ∧ hi.params.inPrompt = hi.params.inPrompt)) :=
  ⟨rfl, rfl, .inl ⟨rfl, rfl⟩, .inr ⟨rfl, rfl⟩⟩
theorem witness_EveryStepKeepsTheInvariant :
    ∃ t, (ready 0x1283).Inv ∧ step (ready 0x1283) = .next t := ⟨_, by decide, rfl⟩
theorem witness_EveryStepKeepsAFlagAndTheParameters :
    ∃ t, step (ready 0x1283) = .next t ∧ (ready 0x1283).cond ≠ .noFlag := ⟨_, rfl, by decide⟩
theorem witness_OnlySetccInstructionsChangeCond :
    ∃ t, exec (.lea .r1 0) State.reset = .next t ∧ t.cond ≠ State.reset.cond ∧
      (Instr.lea .r1 0).setsCond = true ∧ State.reset.runState = .running ∧
      t.runState = .running :=
  ⟨_, rfl, by decide, rfl, rfl, rfl⟩
theorem witness_OnlyListedRegistersAreWritten :
    (∃ t, exec (.lea .r1 0) State.reset = .next t ∧ t.readReg .r1 ≠ State.reset.readReg .r1) ∧
    ∃ t, exec .trapOut (mapped State.reset) = .next t ∧
      t.readReg .r7 ≠ (mapped State.reset).readReg .r7 :=
  ⟨⟨_, rfl, by decide⟩, _, rfl, by decide⟩
theorem witness_HaltOnlyByTrapHalt :
    ∃ t, (ready 0xF025).runState = .running ∧ step (ready 0xF025) = .next t ∧
      t.runState = .halted := ⟨_, by decide, rfl, by decide⟩
theorem witness_EachFaultBelongsToItsOpcode :
    ∃ t, (ready 0xD000).runState = .running ∧ step (ready 0xD000) = .next t ∧
      t.runState = .faulted (.reservedOpcode .res) := ⟨_, by decide, rfl, by decide⟩
theorem witness_OnlyABlockingReadCanWait :
    (ready 0).runState = .running ∧
    step (given ⟨[], .neverSupplied, [], 0, []⟩ [(0x3000, 0xF020)] []) =
      .fault .readNeverReturns := ⟨by decide, rfl⟩
theorem witness_TheConsoleRecordIsNeverRead :
    ∃ t, step (ready 0xF020) = .next t := ⟨_, rfl⟩

end Sys2Proof.Tests
end

section
/-! Where COND is written (10_state.md, rule R26): what each shared end of an instruction can answer, then
one case split over `exec` that says what a next state's COND and run state are. -/

namespace Sys2Proof.Machine

/-! ### What the shared operations can answer -/

/-- A blocking read that completes hands its byte on, or ends in the fault of the end of input. -/
theorem readThen_next {s t : State} {k : Byte → State → StepResult} (h : readThen s k = .next t) :
    (∃ b c, k b (s.setConsole c) = .next t) ∨
      t = (s.setConsole (s.console.log .readEof)).setRunState (.faulted .endOfInput) := by
  rcases readThen_cases s k with ⟨b, c, -, e⟩ | ⟨-, -, e⟩ | ⟨-, -, e⟩ <;> rw [e] at h
  · exact .inl ⟨b, c, h⟩
  · exact .inr (Host.Outcome.next.inj h).symm
  · cases h

/-- A string trap's scan touches only the devices; the step then flushes or faults. -/
theorem putString_next {s t : State} {chars : Word → List Byte} (h : putString chars s = .next t) :
    ∃ u, DevicesOnly s u ∧
      (t = u.flush ∨
        t = (truncateOutput s.console.events.length u).setRunState
          (.faulted .unterminatedString)) := by
  have scan := devicesOnly_scanString chars memorySize (s.readReg .r0) s
  rcases putString_cases chars s with ⟨u, hs, e⟩ | ⟨u, hs, e⟩ <;> rw [hs] at scan <;> rw [e] at h
  · exact ⟨u, scan, .inl (Host.Outcome.next.inj h).symm⟩
  · exact ⟨u, scan, .inr (Host.Outcome.next.inj h).symm⟩

theorem putString_keeps_cond {s t : State} {chars : Word → List Byte}
    (h : putString chars s = .next t) : t.cond = s.cond := by
  obtain ⟨u, hu, rfl | rfl⟩ := putString_next h <;> simp [hu.cond]

/-! ### The two ways an instruction can leave COND -/

/-- The instruction ended by writing its one register and setting COND from the value written, on a
state whose run state is still that of s. -/
def EndsInSetcc (i : Instr) (s t : State) : Prop :=
  i.setsCond = true ∧
    ∃ r v u, i.writtenRegs = [r] ∧ u.runState = s.runState ∧ t = writeResult r v u

/-- The instruction left COND alone, which one that calls setcc does only where it faults. -/
def LeavesCond (i : Instr) (s t : State) : Prop :=
  t.cond = s.cond ∧ (i.setsCond = true → t.runState = .faulted .endOfInput)

theorem EndsInSetcc.runState_eq {i : Instr} {s t : State} (h : EndsInSetcc i s t) :
    t.runState = s.runState := by
  obtain ⟨-, r, v, u, -, hu, rfl⟩ := h
  exact hu

theorem EndsInSetcc.flagMatches {i : Instr} {s t : State} (h : EndsInSetcc i s t) :
    ∃ r, i.writtenRegs = [r] ∧ FlagMatches t.cond (t.readReg r) := by
  obtain ⟨-, r, v, u, hr, -, rfl⟩ := h
  exact ⟨r, hr, by simpa using flagMatches_condOf v⟩

theorem endsInSetcc_of_loadFrom {i : Instr} {s u t : State} {dr : Reg} {ea : Word}
    (hi : i.setsCond = true) (hr : i.writtenRegs = [dr]) (hu : DevicesOnly s u)
    (h : loadFrom dr ea u = .next t) : EndsInSetcc i s t :=
  ⟨hi, dr, _, (memRead ea u).2, hr, (hu.trans (devicesOnly_memRead ea u)).runState,
    (Host.Outcome.next.inj h).symm⟩

/-- GETC and IN alike: a read begun with the COND of s ends in setcc, or faults and leaves COND. -/
theorem readThen_cond_cases {i : Instr} {s u t : State} {k : Byte → State → StepResult}
    (hc : u.cond = s.cond)
    (hk : ∀ b c, k b (u.setConsole c) = .next t → EndsInSetcc i s t)
    (h : readThen u k = .next t) : EndsInSetcc i s t ∨ LeavesCond i s t := by
  rcases readThen_next h with ⟨b, c, hb⟩ | rfl
  · exact .inl (hk b c hb)
  · exact .inr ⟨hc, fun _ => rfl⟩

/-- Every arm of `exec` ends in setcc or leaves COND alone. -/
theorem exec_cond_cases {i : Instr} {s t : State} (h : exec i s = .next t) :
    EndsInSetcc i s t ∨ LeavesCond i s t := by
  cases i with
  | addReg | addImm | andReg | andImm | notReg | lea =>
    exact .inl ⟨rfl, _, _, s, rfl, rfl, (Host.Outcome.next.inj h).symm⟩
  | ld | ldr => exact .inl (endsInSetcc_of_loadFrom rfl rfl (.refl s) h)
  | ldi => exact .inl (endsInSetcc_of_loadFrom rfl rfl (devicesOnly_memRead _ s) h)
  | br n z p off9 =>
    cases h
    refine .inr ⟨?_, nofun⟩
    split <;> rfl
  | jmp | jsr | jsrr | st | str | rti | res => cases h; exact .inr ⟨rfl, nofun⟩
  | sti => cases h; exact .inr ⟨(devicesOnly_memRead _ s).cond, nofun⟩
  | trapGetc =>
    simp only [exec, execTrapGetc] at h
    refine readThen_cond_cases (trapEntry_cond s) (fun b c hb => ?_) h
    exact ⟨rfl, _, _, _, rfl, by simp, (Host.Outcome.next.inj hb).symm⟩
  | trapIn =>
    simp only [exec, execTrapIn] at h
    refine readThen_cond_cases (by simp) (fun b c hb => ?_) h
    exact ⟨rfl, _, _, _, rfl, by simp, (Host.Outcome.next.inj hb).symm⟩
  | trapPuts | trapPutsp => exact .inr ⟨by simpa using putString_keeps_cond h, nofun⟩
  | trapOut | trapHalt | trapBadvec => cases h; exact .inr ⟨by simp, nofun⟩

/-- Settles O55, from the two ways an arm of `exec` can leave COND. -/
theorem onlySetccInstructionsChangeCond : Obligations.OnlySetccInstructionsChangeCond := by
  intro i s t h
  rcases exec_cond_cases h with hset | ⟨hcond, hfault⟩
  · exact ⟨fun _ => ⟨hset.1, hset.runState_eq⟩, fun _ _ _ => hset.flagMatches⟩
  · refine ⟨fun hne => absurd hcond hne, fun hi _ hrun => ?_⟩
    rw [hfault hi] at hrun
    cases hrun

end Sys2Proof.Machine
end

section
/-! The bit-field primitives (30_encoding.md, rules R60 to R62): each is described once by the bits, or
by the number, of its answer. -/

namespace Sys2Proof.Machine

/-! ### `bit`: the numbered bit as a Word -/

theorem shiftRight_and_one (w : Word) (n : Nat) :
    (w >>> n) &&& 1 = if w.getLsbD n then 1 else 0 := by
  have h := BitVec.and_one_eq_setWidth_ofBool_getLsbD (x := w >>> n)
  rw [BitVec.getLsbD_ushiftRight, Nat.add_zero] at h
  rw [show (1 : Word) = 1#16 from rfl, h]
  cases w.getLsbD n <;> rfl

theorem bit_of_le {n : Nat} (w : Word) (hn : n ≤ 15) :
    bit w n = some (if w.getLsbD n then 1 else 0) := by
  rw [bit, if_pos hn, shiftRight_and_one]

theorem bit_of_gt {n : Nat} (w : Word) (hn : 15 < n) : bit w n = none :=
  if_neg (Nat.not_le.mpr hn)

/-- Settles O1: inside its range `bit` masks the shifted word to the numbered bit. -/
theorem bitReadsTheNumberedBit : Obligations.BitReadsTheNumberedBit :=
  fun w _ => ⟨bit_of_le w, bit_of_gt w⟩

/-! ### `setBit` and `clearBit`: the bits of their answers -/

/-- Mathlib's name for the Word whose one bit is bit n, which the masks are built from. -/
theorem one_shiftLeft (n : Nat) : (1 : Word) <<< n = BitVec.twoPow 16 n :=
  (BitVec.twoPow_eq 16 n).symm

theorem getLsbD_one_shiftLeft {n : Nat} (hn : n ≤ 15) (m : Nat) :
    ((1 : Word) <<< n).getLsbD m = decide (m = n) := by
  rw [one_shiftLeft, BitVec.getLsbD_twoPow, decide_eq_true (show n < 16 by omega), Bool.true_and]
  exact decide_eq_decide.mpr eq_comm

theorem setBit_bits {n : Nat} (w : Word) (hn : n ≤ 15) :
    ∃ x, setBit w n = some x ∧ ∀ m, x.getLsbD m = (w.getLsbD m || decide (m = n)) :=
  ⟨_, if_pos hn, fun m => by rw [BitVec.getLsbD_or, getLsbD_one_shiftLeft hn]⟩

theorem clearBit_bits {n : Nat} (w : Word) (hn : n ≤ 15) :
    ∃ y, clearBit w n = some y ∧ ∀ m, y.getLsbD m = (w.getLsbD m && !decide (m = n)) := by
  refine ⟨_, if_pos hn, fun m => ?_⟩
  rw [BitVec.getLsbD_and, BitVec.getLsbD_not, getLsbD_one_shiftLeft hn]
  by_cases hm : m < 16
  · simp [hm]
  · simp [BitVec.getLsbD_of_ge w m (by omega)]

/-- Settles O2, from the bits of the two answers. -/
theorem setAndClearBitChangeOneBit : Obligations.SetAndClearBitChangeOneBit := by
  intro w n hn
  obtain ⟨x, hset, hx⟩ := setBit_bits w hn
  obtain ⟨y, hclear, hy⟩ := clearBit_bits w hn
  refine ⟨x, y, hset, hclear, ?_, ?_, fun m hm hne => ?_⟩
  · simp [bit_of_le x hn, hx]
  · simp [bit_of_le y hn, hy]
  · simp [bit_of_le _ hm, hx, hy, hne]

/-! ### `field`: the number of its answer -/

theorem toNat_lowMask {width : Nat} (hw : width ≤ 15) :
    (((1 : Word) <<< width) - 1).toNat = 2 ^ width - 1 := by
  have hpos : 1#16 ≤ BitVec.twoPow 16 width := by
    rw [BitVec.le_def, BitVec.toNat_twoPow_of_lt (by omega)]
    exact Nat.one_le_two_pow
  rw [one_shiftLeft, show (1 : Word) = 1#16 from rfl, BitVec.toNat_sub_of_le hpos,
    BitVec.toNat_twoPow_of_lt (by omega)]
  rfl

theorem field_toNat {start width : Nat} (w : Word) (hs : start ≤ 15) (hw : width ≤ 15) :
    ∃ x, field w start width = some x ∧ x.toNat = w.toNat / 2 ^ start % 2 ^ width := by
  refine ⟨_, if_pos ⟨hs, hw⟩, ?_⟩
  rw [BitVec.toNat_and, toNat_lowMask hw, Nat.and_two_pow_sub_one_eq_mod,
    BitVec.toNat_ushiftRight, Nat.shiftRight_eq_div_pow]

theorem field_eq_none {start width : Nat} (w : Word) (h : 15 < start ∨ 15 < width) :
    field w start width = none :=
  if_neg (by omega)

/-- Settles O3: a right shift is a division, and the mask of the low bits a remainder. -/
theorem fieldIsShiftThenMask : Obligations.FieldIsShiftThenMask :=
  fun w _ _ => ⟨fun ⟨hs, hw⟩ => field_toNat w hs hw, field_eq_none w⟩

end Sys2Proof.Machine
end

section
/-! `setcc` alone (40_step.md, rule R94): the flag is `condOf` of its argument, whose two laws are
the model's own. -/

namespace Sys2Proof.Machine

/-- COND is the only field `setcc` writes: writing the flag it left there is the whole of it. -/
theorem setcc_eq_setCond_cond (s : State) (v : Word) : s.setcc v = s.setCond (s.setcc v).cond := by
  rw [State.setcc_cond, State.setcc]

/-- Settles O25, from the laws of `condOf`: it matches the sign and is never NONE. -/
theorem setccFollowsTheSign : Obligations.SetccFollowsTheSign := by
  intro s v
  refine ⟨?_, setcc_eq_setCond_cond s v, ?_⟩ <;> rw [State.setcc_cond]
  · exact flagMatches_condOf v
  · exact condOf_ne_noFlag v

end Sys2Proof.Machine
end

section
/-! ADD, AND and NOT (41_operate.md, rules R100 to R104). All five forms end in `writeResult` on the state
they are given, whose whole effect is said once; what is left of each form is its value. -/

namespace Sys2Proof.Machine

/-- The register written, its flag, and the frame: from the model's law for each field. -/
theorem onlyResultWritten_writeResult (dr : Reg) (v : Word) (s : State) :
    OnlyResultWritten dr v s (writeResult dr v s) := by
  refine ⟨writeResult_readReg_same dr v s, ?_, fun r hr => ?_, ⟨rfl, rfl, rfl⟩, rfl, rfl⟩
  · rw [writeResult_cond]
    exact flagMatches_condOf v
  · exact writeResult_readReg_ne v s fun h => hr (List.mem_singleton.mpr h)

/-! ### The values, as the statements spell them -/

/-- The Word that stands for the signed number in the field (rule R63). -/
theorem sext_eq_ofInt {n : Nat} (v : BitVec n) : sext v = BitVec.ofInt 16 v.toInt := rfl

/-- Adding an extended field adds its signed number, modulo 2^16 (rules R41, R105). -/
theorem add_sext {n : Nat} (w : Word) (v : BitVec n) :
    w + sext v = BitVec.ofInt 16 (w.toNat + v.toInt) := by
  rw [BitVec.ofInt_add, BitVec.ofInt_natCast, BitVec.ofNat_toNat, BitVec.setWidth_eq, sext_eq_ofInt]

/-! ### The arms -/

theorem exec_addReg (dr sr1 sr2 : Reg) (s : State) : exec (.addReg dr sr1 sr2) s =
    .next (writeResult dr (s.readReg sr1 + s.readReg sr2) s) := rfl

theorem exec_addImm (dr sr1 : Reg) (imm5 : BitVec 5) (s : State) : exec (.addImm dr sr1 imm5) s =
    .next (writeResult dr (s.readReg sr1 + sext imm5) s) := rfl

theorem exec_andReg (dr sr1 sr2 : Reg) (s : State) : exec (.andReg dr sr1 sr2) s =
    .next (writeResult dr (s.readReg sr1 &&& s.readReg sr2) s) := rfl

theorem exec_andImm (dr sr1 : Reg) (imm5 : BitVec 5) (s : State) : exec (.andImm dr sr1 imm5) s =
    .next (writeResult dr (s.readReg sr1 &&& sext imm5) s) := rfl

theorem exec_notReg (dr sr : Reg) (s : State) : exec (.notReg dr sr) s =
    .next (writeResult dr (~~~ s.readReg sr) s) := rfl

/-! ### The three statements -/

/-- Settles O26: each form writes its sum, modulo 2^16 (rule R105), by `writeResult`. -/
theorem addBothForms : Obligations.AddBothForms := by
  refine ⟨fun dr sr1 sr2 s => ⟨_, exec_addReg dr sr1 sr2 s, ?_⟩,
    fun dr sr1 imm5 s => ⟨_, exec_addImm dr sr1 imm5 s, ?_⟩⟩
  · rw [BitVec.add_def]
    exact onlyResultWritten_writeResult dr _ s
  · rw [add_sext]
    exact onlyResultWritten_writeResult dr _ s

/-- Settles O27: each form writes its bitwise and by `writeResult`. -/
theorem andBothForms : Obligations.AndBothForms := by
  refine ⟨fun dr sr1 sr2 s => ⟨_, exec_andReg dr sr1 sr2 s, ?_⟩,
    fun dr sr1 imm5 s => ⟨_, exec_andImm dr sr1 imm5 s, ?_⟩⟩
  · exact onlyResultWritten_writeResult dr _ s
  · rw [sext_eq_ofInt]
    exact onlyResultWritten_writeResult dr _ s

/-- Settles O28: NOT writes the complement by `writeResult`; a complement flips each of its bits. -/
theorem notComplements : Obligations.NotComplements := by
  intro dr sr s
  refine ⟨_, ~~~ s.readReg sr, exec_notReg dr sr s, fun n hn => ?_,
    onlyResultWritten_writeResult dr _ s⟩
  rw [BitVec.getLsbD_not, decide_eq_true hn, Bool.true_and]

end Sys2Proof.Machine
end

section
/-! BR, JMP, JSR and JSRR (42_control.md, rules R110 to R113). BR turns on the flags it requests; the two
calls end alike, in a saved PC and a new one, and that end is said once. -/

namespace Sys2Proof.Machine

/-! ### The condition and the target of a branch -/

/-- BR is taken exactly where COND is a flag it requests; COND = NONE is none of them (rule R110). -/
theorem branchTaken_iff (n z p : Bool) (c : Cond) : branchTaken n z p c = true ↔
    (n = true ∧ c = .negative) ∨ (z = true ∧ c = .zero) ∨ (p = true ∧ c = .positive) := by
  simp only [branchTaken, Bool.or_eq_true, Bool.and_eq_true, decide_eq_true_eq, or_assoc]

/-- PC-relative: the sum with the signed offset, modulo 2^16 (rules R41, R127). -/
theorem pcRelative_eq_ofInt {n : Nat} (off : BitVec n) (s : State) :
    pcRelative off s = BitVec.ofInt 16 (s.pc.toNat + off.toInt) := add_sext s.pc off

/-! ### A call: R7 saved, then PC replaced -/

/-- What a register holds once R7 has been written: R7 itself reads as the saved PC (rule R113). -/
theorem saveReturn_readReg (s : State) (r : Reg) :
    (saveReturn s).readReg r = if r = .r7 then s.pc else s.readReg r :=
  s.readReg_writeReg .r7 r s.pc

/-- The whole effect of a call to a target: R7, PC and the frame. -/
theorem saveReturn_setPc_effect {s t : State} {target : Word}
    (h : t = (saveReturn s).setPc target) :
    t.readReg .r7 = s.pc ∧ t.pc = target ∧ SameRegsBut [.r7] s t ∧ t.cond = s.cond ∧
      t.mem = s.mem ∧ t.console = s.console ∧ t.runState = s.runState ∧ t.params = s.params := by
  subst h
  refine ⟨?_, rfl, fun r hr => ?_, rfl, rfl, rfl, rfl, rfl⟩ <;>
    rw [State.setPc_readReg, saveReturn_readReg]
  · exact if_pos rfl
  · exact if_neg fun h => hr (List.mem_singleton.mpr h)

/-! ### The arms -/

theorem exec_br_of_taken {n z p : Bool} {s : State} (off9 : BitVec 9)
    (h : branchTaken n z p s.cond = true) :
    exec (.br n z p off9) s = .next (s.setPc (pcRelative off9 s)) :=
  congrArg Host.Outcome.next (if_pos h)

theorem exec_br_of_not_taken {n z p : Bool} {s : State} (off9 : BitVec 9)
    (h : ¬ branchTaken n z p s.cond = true) : exec (.br n z p off9) s = .next s :=
  congrArg Host.Outcome.next (if_neg h)

theorem exec_jmp (base : Reg) (s : State) :
    exec (.jmp base) s = .next (s.setPc (s.readReg base)) := rfl

theorem exec_jsr (off11 : BitVec 11) (s : State) :
    exec (.jsr off11) s = .next ((saveReturn s).setPc (pcRelative off11 s)) := rfl

theorem exec_jsrr (base : Reg) (s : State) :
    exec (.jsrr base) s = .next ((saveReturn s).setPc ((saveReturn s).readReg base)) := rfl

/-! ### The four statements -/

/-- Settles O29: the requested flags decide whether the branch is taken. -/
theorem branchIffTheFlagIsRequested : Obligations.BranchIffTheFlagIsRequested := by
  intro n z p off9 s
  rw [← branchTaken_iff, ← pcRelative_eq_ofInt]
  exact ⟨exec_br_of_taken off9, exec_br_of_not_taken off9⟩

/-- Settles O30: JMP is `setPc` of the base register, R7 included. -/
theorem jmpGoesToTheBaseRegister : Obligations.JmpGoesToTheBaseRegister := by
  intro base s
  refine ⟨_, exec_jmp base s, s.setPc_pc _, ?_⟩
  rw [State.setPc_pc]

/-- Settles O31: JSR is the call to PC + offset11. -/
theorem jsrSavesAndJumps : Obligations.JsrSavesAndJumps := by
  intro off11 s
  refine ⟨_, exec_jsr off11 s, saveReturn_setPc_effect ?_⟩
  rw [pcRelative_eq_ofInt]

/-- Settles O32: JSRR is the call to what the base register reads after R7 is written. -/
theorem jsrrSavesThenReadsTheBase : Obligations.JsrrSavesThenReadsTheBase := by
  intro base s
  refine ⟨_, exec_jsrr base s, saveReturn_setPc_effect ?_⟩
  rw [saveReturn_readReg]

end Sys2Proof.Machine
end

section
/-! LD, LDR, LEA, ST and STR (43_load_store.md, rules R120, R122, R123, R124, R126). The loads end in
`loadFrom` and the stores in `memWrite`; the effect of each end is said once, for every address. What is
left of each instruction is its address, PC-relative or base + offset. -/

namespace Sys2Proof.Machine

/-! ### The two shared ends -/

/-- A load is the mapped read, then `writeResult` on the state the read leaves: away from KBSR that is
the state itself, and at KBSR the poll's, which differs from it in memory and console alone. -/
theorem loadedFrom_writeResult (dr : Reg) (ea : Word) (s : State) :
    LoadedFrom dr ea s (writeResult dr (memRead ea s).1 (memRead ea s).2) := by
  have read := devicesOnly_memRead ea s
  obtain ⟨hdr, hflag, hregs, ⟨hpc, hrun, hparams⟩, hmem, hcons⟩ :=
    onlyResultWritten_writeResult dr (memRead ea s).1 (memRead ea s).2
  refine ⟨hdr, hflag, fun r hr => (hregs r hr).trans (read.readReg r),
    ⟨hpc.trans read.pc, hrun.trans read.runState, hparams.trans read.params⟩,
    fun hne => ?_, fun _ => ⟨hmem, hcons⟩⟩
  rw [hmem, hcons, memRead_of_ne s hne]
  exact ⟨rfl, rfl, rfl⟩

/-- A store is one plain write, KBSR and KBDR included (rule R48). -/
theorem storedAt_memWrite (ea v : Word) (s : State) : StoredAt ea v s (memWrite ea v s) := by
  refine ⟨s.mem.read_write_same ea v, fun a ha => ?_, rfl, rfl, ⟨rfl, rfl, rfl⟩, rfl⟩
  exact s.mem.read_write_ne v fun h => ha (List.mem_singleton.mpr h)

/-! ### The address of LDR and STR -/

/-- Base + offset: the sum with the signed offset, modulo 2^16 (rules R41, R127). -/
theorem basePlusOffset_eq_ofInt (base : Reg) (off6 : BitVec 6) (s : State) :
    basePlusOffset base off6 s = BitVec.ofInt 16 ((s.readReg base).toNat + off6.toInt) :=
  add_sext (s.readReg base) off6

/-! ### The arms -/

theorem loadFrom_eq (dr : Reg) (ea : Word) (s : State) : loadFrom dr ea s =
    .next (writeResult dr (memRead ea s).1 (memRead ea s).2) := rfl

theorem exec_ld (dr : Reg) (off9 : BitVec 9) (s : State) : exec (.ld dr off9) s =
    loadFrom dr (pcRelative off9 s) s := rfl

theorem exec_ldr (dr base : Reg) (off6 : BitVec 6) (s : State) : exec (.ldr dr base off6) s =
    loadFrom dr (basePlusOffset base off6 s) s := rfl

theorem exec_lea (dr : Reg) (off9 : BitVec 9) (s : State) : exec (.lea dr off9) s =
    .next (writeResult dr (pcRelative off9 s) s) := rfl

theorem exec_st (sr : Reg) (off9 : BitVec 9) (s : State) : exec (.st sr off9) s =
    .next (memWrite (pcRelative off9 s) (s.readReg sr) s) := rfl

theorem exec_str (sr base : Reg) (off6 : BitVec 6) (s : State) : exec (.str sr base off6) s =
    .next (memWrite (basePlusOffset base off6 s) (s.readReg sr) s) := rfl

/-! ### The five statements -/

/-- Settles O34: LD is the load from PC + offset9. -/
theorem ldLoadsPcRelative : Obligations.LdLoadsPcRelative := by
  intro dr off9 s
  rw [exec_ld, pcRelative_eq_ofInt]
  exact ⟨_, loadFrom_eq dr _ s, loadedFrom_writeResult dr _ s⟩

/-- Settles O36: LDR is the load from the old base + offset6. -/
theorem ldrLoadsBasePlusOffset : Obligations.LdrLoadsBasePlusOffset := by
  intro dr base off6 s
  rw [exec_ldr, basePlusOffset_eq_ofInt]
  exact ⟨_, loadFrom_eq dr _ s, loadedFrom_writeResult dr _ s⟩

/-- Settles O37: LEA writes the address itself by `writeResult`, with no read. -/
theorem leaWritesTheAddress : Obligations.LeaWritesTheAddress := by
  intro dr off9 s
  rw [exec_lea, pcRelative_eq_ofInt]
  exact ⟨_, rfl, onlyResultWritten_writeResult dr _ s⟩

/-- Settles O38: ST is the store to PC + offset9. -/
theorem stStoresPcRelative : Obligations.StStoresPcRelative := by
  intro sr off9 s
  rw [exec_st, pcRelative_eq_ofInt]
  exact ⟨_, rfl, storedAt_memWrite _ (s.readReg sr) s⟩

/-- Settles O40: STR is the store to base + offset6. -/
theorem strStoresBasePlusOffset : Obligations.StrStoresBasePlusOffset := by
  intro sr base off6 s
  rw [exec_str, basePlusOffset_eq_ofInt]
  exact ⟨_, rfl, storedAt_memWrite _ (s.readReg sr) s⟩

end Sys2Proof.Machine
end

section
/-! RTI and RES (45_reserved.md, rules R160, R161). Both arms are the fault of their own opcode, raised in
the state they are given; `raiseFault_eq` says what a raised fault leaves. -/

namespace Sys2Proof.Machine

/-! ### The arms -/

theorem exec_rti (s : State) : exec .rti s = raiseFault (.reservedOpcode .rti) s := rfl

theorem exec_res (s : State) : exec .res s = raiseFault (.reservedOpcode .res) s := rfl

/-! ### The statement -/

/-- Settles O52: each opcode raises its own fault, and a raised fault changes the run state alone. -/
theorem reservedOpcodesFault : Obligations.ReservedOpcodesFault := by
  intro s
  constructor
  · rw [exec_rti, raiseFault_eq]
  · rw [exec_res, raiseFault_eq]

end Sys2Proof.Machine
end

section
/-! Sign extension and the sign tests (30_encoding.md section 1, rules R63, R64): the primitive is the
signed resize of the field, from which its number and its low bits are read. -/

namespace Sys2Proof.Machine

/-! ### The sign tests -/

theorem bit_fifteen (w : Word) : bit w 15 = some (if w.msb then 1 else 0) :=
  bit_of_le w (Nat.le_refl 15)

theorem isNegative_eq_msb (w : Word) : isNegative w = w.msb := by
  rw [isNegative, bit_fifteen]
  cases w.msb <;> rfl

theorem isPositive_eq_not_msb (w : Word) : isPositive w = !w.msb := by
  rw [isPositive, bit_fifteen]
  cases w.msb <;> rfl

/-! ### The primitive is the signed resize -/

theorem getLsbD_highMask {n m : Nat} (hm : m < 16) :
    ((0xFFFF : Word) <<< n).getLsbD m = decide (n ≤ m) := by
  rw [show (0xFFFF : Word) = BitVec.allOnes 16 from rfl, BitVec.getLsbD_shiftLeft,
    BitVec.getLsbD_allOnes]
  grind

/-- The sign bit of a field of n bits is bit n - 1 of the field as a Word. -/
theorem signBit_eq_msb {n : Nat} (v : BitVec n) (h1 : 1 ≤ n) (h2 : n ≤ 15) :
    (v.setWidth 16 >>> (n - 1)) &&& 1 = if v.msb then 1 else 0 := by
  rw [shiftRight_and_one, BitVec.getLsbD_setWidth, decide_eq_true (show n - 1 < 16 by omega),
    Bool.true_and, BitVec.msb_eq_getLsbD_last]

theorem sext_of_msb {n : Nat} {v : BitVec n} (h : v.msb = true) :
    sext v = v.setWidth 16 ||| ((0xFFFF : Word) <<< n) := by
  refine BitVec.eq_of_getLsbD_eq fun m hm => ?_
  rw [sext, BitVec.getLsbD_signExtend, BitVec.getLsbD_or, getLsbD_highMask hm,
    BitVec.getLsbD_setWidth, decide_eq_true hm, h]
  by_cases hn : m < n
  · simp [hn, Nat.not_le.mpr hn]
  · simp [hn, Nat.not_lt.mp hn]

theorem sext_of_not_msb {n : Nat} {v : BitVec n} (h : v.msb = false) : sext v = v.setWidth 16 :=
  BitVec.signExtend_eq_setWidth_of_msb_false h

theorem signExtend_eq_sext {n : Nat} (v : BitVec n) (h1 : 1 ≤ n) (h2 : n ≤ 15) :
    signExtend (v.setWidth 16) n = some (sext v) := by
  have hlt : (v.setWidth 16).toNat < 2 ^ n := by
    rw [BitVec.toNat_setWidth_of_le (by omega)]
    exact v.isLt
  rw [signExtend, if_pos ⟨h1, h2, hlt⟩, signBit_eq_msb v h1 h2]
  cases hv : v.msb
  · rw [sext_of_not_msb hv]
    rfl
  · rw [sext_of_msb hv]
    rfl

/-- Settles O5: below the field both agree with it, and above it both repeat the sign bit. -/
theorem operandExtensionIsThePrimitive : Obligations.OperandExtensionIsThePrimitive :=
  fun _ v h1 h2 => signExtend_eq_sext v h1 h2

/-! ### The number and the low bits of a sign extension -/

theorem sext_toInt {n : Nat} (v : BitVec n) (h : n ≤ 16) : (sext v).toInt = v.toInt :=
  BitVec.toInt_signExtend_of_le h

theorem sext_toNat_mod {n : Nat} (v : BitVec n) (h : n ≤ 16) : (sext v).toNat % 2 ^ n = v.toNat := by
  rw [← BitVec.toNat_setWidth]
  congr 1
  refine BitVec.eq_of_getLsbD_eq fun i hi => ?_
  rw [BitVec.getLsbD_setWidth, sext, BitVec.getLsbD_signExtend]
  simp [hi, show i < 16 by omega]

/-- The two's-complement reading of a field (rule R63). -/
theorem toInt_eq_of_pos {n : Nat} (v : BitVec n) (h : 1 ≤ n) :
    v.toInt = if v.toNat < 2 ^ (n - 1) then (v.toNat : Int) else (v.toNat : Int) - 2 ^ n := by
  obtain ⟨k, rfl⟩ : ∃ k, n = k + 1 := ⟨n - 1, by omega⟩
  rw [BitVec.toInt_eq_toNat_cond, Nat.pow_succ, Nat.add_sub_cancel]
  by_cases hk : v.toNat < 2 ^ k
  · rw [if_pos (by omega), if_pos hk]
  · rw [if_neg (by omega), if_neg hk]
    push_cast
    rw [pow_succ]

/-- Settles O4: a value below 2^n is a field of n bits, whose extension has its low bits and its
two's-complement number. -/
theorem signExtendKeepsTheValueAndSignTestsReadBit15 :
    Obligations.SignExtendKeepsTheValueAndSignTestsReadBit15 := by
  refine ⟨fun w => ?_, fun v n => ⟨fun ⟨h1, h2, hv⟩ => ?_, fun h => if_neg (by omega)⟩⟩
  · rw [isNegative_eq_msb, isPositive_eq_not_msb, BitVec.msb_eq_decide]
    simp
  · have hfield : (v.setWidth n).toNat = v.toNat := by
      rw [BitVec.toNat_setWidth, Nat.mod_eq_of_lt hv]
    have hback : (v.setWidth n).setWidth 16 = v := by
      apply BitVec.eq_of_toNat_eq
      rw [BitVec.toNat_setWidth, hfield, Nat.mod_eq_of_lt v.isLt]
    refine ⟨sext (v.setWidth n), ?_, ?_, ?_⟩
    · rw [← signExtend_eq_sext _ h1 h2, hback]
    · rw [sext_toNat_mod _ (by omega), hfield]
    · rw [sext_toInt _ (by omega), toInt_eq_of_pos _ h1, hfield]

/-! ### `field` as an extraction -/

theorem field_eq_extractLsb' {start width : Nat} (w : Word) (hs : start ≤ 15) (hw : width ≤ 15) :
    field w start width = some ((w.extractLsb' start width).setWidth 16) := by
  obtain ⟨x, hx, hnat⟩ := field_toNat w hs hw
  rw [hx]
  congr 1
  apply BitVec.eq_of_toNat_eq
  rw [hnat, BitVec.toNat_setWidth_of_le (by omega), BitVec.extractLsb'_toNat,
    Nat.shiftRight_eq_div_pow]

theorem field_eq_regBits {start : Nat} (w : Word) (hs : start ≤ 15) :
    field w start 3 = some ((Reg.ofBits (w.extractLsb' start 3)).bits.setWidth 16) := by
  rw [Reg.bits_ofBits, field_eq_extractLsb' w hs (by decide)]

/-- Settles O6: each accessor is the extraction, or the bit, that the primitive computes. -/
theorem accessorsAreTheSpecFields : Obligations.AccessorsAreTheSpecFields := by
  intro ir
  have field {start width : Nat} := field_eq_extractLsb' (start := start) (width := width) ir
  have bit {n : Nat} := bit_of_le (n := n) ir
  have reg {start : Nat} := field_eq_regBits (start := start) ir
  refine ⟨field ?_ ?_, bit ?_, reg ?_, reg ?_, reg ?_, field ?_ ?_, field ?_ ?_, field ?_ ?_,
    field ?_ ?_, bit ?_, bit ?_, bit ?_, bit ?_, field ?_ ?_⟩ <;> decide

end Sys2Proof.Machine
end

section
/-! The instruction codec (30_encoding.md sections 3 to 7, rules R66 to R81, R86). A word's fixed bits are
read from its row of the opcode table; the fields of an encoded word are read by the laws of `++`. -/

namespace Sys2Proof

/-! ### The opcode map and its inverse (rule R80) -/

/-- The value of an opcode's name. -/
def Opcode.bits : Opcode → BitVec 4
  | .br => 0x0 | .add => 0x1 | .ld => 0x2 | .st => 0x3
  | .jsr => 0x4 | .and => 0x5 | .ldr => 0x6 | .str => 0x7
  | .rti => 0x8 | .not => 0x9 | .ldi => 0xA | .sti => 0xB
  | .jmp => 0xC | .res => 0xD | .lea => 0xE | .trap => 0xF

@[simp] theorem Opcode.ofBits_bits (o : Opcode) : Opcode.ofBits o.bits = o := by cases o <;> rfl

@[simp] theorem Opcode.bits_ofBits (b : BitVec 4) : (Opcode.ofBits b).bits = b := by
  revert b; decide

/-- The opcode is the word's four high bits, one by one (rule R66). -/
theorem getElem_of_opcodeOf {w : Word} {op : Opcode} (h : opcodeOf w = op) :
    w[12] = op.bits[0] ∧ w[13] = op.bits[1] ∧ w[14] = op.bits[2] ∧ w[15] = op.bits[3] := by
  rw [← h, opcodeOf, Opcode.bits_ofBits, opcodeBits]
  simp [BitVec.getLsbD_eq_getElem]

/-! ### Bits a word shares with its row -/

theorem extractLsb'_eq_of_mask {w m v : Word} {start len : Nat} (h : w &&& m = v)
    (hm : m.extractLsb' start len = BitVec.allOnes len) :
    w.extractLsb' start len = v.extractLsb' start len := by
  rw [← h, BitVec.extractLsb'_and, hm, BitVec.and_allOnes]

/-- The opcode of the instruction's mnemonic (rule R80). -/
def Instr.opcode : Instr → Opcode
  | .addReg _ _ _ | .addImm _ _ _ => .add
  | .andReg _ _ _ | .andImm _ _ _ => .and
  | .notReg _ _ => .not
  | .br _ _ _ _ => .br
  | .jmp _ => .jmp
  | .jsr _ | .jsrr _ => .jsr
  | .ld _ _ => .ld
  | .ldi _ _ => .ldi
  | .ldr _ _ _ => .ldr
  | .lea _ _ => .lea
  | .st _ _ => .st
  | .sti _ _ => .sti
  | .str _ _ _ => .str
  | .rti => .rti
  | .res => .res
  | .trapGetc | .trapOut | .trapPuts | .trapIn | .trapPutsp | .trapHalt | .trapBadvec _ => .trap

/-- Every row fixes the opcode's four bits, at its instruction's opcode. -/
theorem row_fixes_opcode (i : Instr) : i.row.mask.extractLsb' 12 4 = BitVec.allOnes 4 ∧
    i.row.value.extractLsb' 12 4 = i.opcode.bits := by
  cases i <;> simp only [Instr.row] <;> exact ⟨rfl, rfl⟩

theorem opcodeOf_eq_of_row {w : Word} {i : Instr} (h : w &&& i.row.mask = i.row.value) :
    opcodeOf w = i.opcode := by
  obtain ⟨hmask, hvalue⟩ := row_fixes_opcode i
  rw [opcodeOf, opcodeBits, extractLsb'_eq_of_mask h hmask, hvalue, Opcode.ofBits_bits]

/-- The canonical word has the fixed bits of its row, whatever the instruction. -/
theorem encode_and_row_mask (i : Instr) : encode i &&& i.row.mask = i.row.value := by
  cases i with
  | addReg => exact Laws.EncodesInItsRow.addReg ..
  | addImm => exact Laws.EncodesInItsRow.addImm ..
  | andReg => exact Laws.EncodesInItsRow.andReg ..
  | andImm => exact Laws.EncodesInItsRow.andImm ..
  | notReg => exact Laws.EncodesInItsRow.notReg ..
  | br => exact Laws.EncodesInItsRow.br ..
  | jmp => exact Laws.EncodesInItsRow.jmp ..
  | jsr => exact Laws.EncodesInItsRow.jsr ..
  | jsrr => exact Laws.EncodesInItsRow.jsrr ..
  | ld => exact Laws.EncodesInItsRow.ld ..
  | ldi => exact Laws.EncodesInItsRow.ldi ..
  | ldr => exact Laws.EncodesInItsRow.ldr ..
  | lea => exact Laws.EncodesInItsRow.lea ..
  | st => exact Laws.EncodesInItsRow.st ..
  | sti => exact Laws.EncodesInItsRow.sti ..
  | str => exact Laws.EncodesInItsRow.str ..
  | rti => exact Laws.EncodesInItsRow.rti
  | res => exact Laws.EncodesInItsRow.res
  | trapGetc => exact Laws.EncodesInItsRow.trapGetc
  | trapOut => exact Laws.EncodesInItsRow.trapOut
  | trapPuts => exact Laws.EncodesInItsRow.trapPuts
  | trapIn => exact Laws.EncodesInItsRow.trapIn
  | trapPutsp => exact Laws.EncodesInItsRow.trapPutsp
  | trapHalt => exact Laws.EncodesInItsRow.trapHalt
  | trapBadvec => exact Laws.EncodesInItsRow.trapBadvec ..

theorem opcodeOf_encode (i : Instr) : opcodeOf (encode i) = i.opcode :=
  opcodeOf_eq_of_row (encode_and_row_mask i)

/-! ### Decode after encode -/

theorem decodeTrap_of_not_defined {v : BitVec 8} (h : definedVector v = false) :
    decodeTrap v = .trapBadvec v := by
  have hv := (definedVector_iff v).not.mp (by simp [h])
  simp only [not_or] at hv
  obtain ⟨h0, h1, h2, h3, h4, h5⟩ := hv
  simp only [decodeTrap, h0, h1, h2, h3, h4, h5, if_false]

/-- Settles O8: the row gives the opcode and the mode bits, and each field of the concatenation is read
back at its position. -/
theorem decodeAfterEncodeReturnsTheInstruction :
    Obligations.DecodeAfterEncodeReturnsTheInstruction := by
  intro i hwf
  rw [decode, opcodeOf_encode]
  cases i with
  | trapGetc | trapOut | trapPuts | trapIn | trapPutsp | trapHalt => rfl
  | rti | res => rfl
  | trapBadvec v =>
    simp (disch := decide) only [Instr.opcode, encode, trapvect8,
      BitVec.extractLsb'_append_eq_of_add_le, BitVec.extractLsb'_eq_self]
    exact decodeTrap_of_not_defined (by simpa [Instr.wf] using hwf)
  | addReg | andReg | addImm | andImm | notReg | br | jmp | jsr | jsrr | ld | ldi | ldr | lea | st | sti
  | str =>
    simp (disch := decide) only [Instr.opcode, encode, immediateFlag, jsrModeFlag, nFlag, zFlag, pFlag,
      drField, sr1Field, sr2Field, imm5Field, offset6Field, offset9Field, offset11Field,
      BitVec.extractLsb'_append_eq_of_le, BitVec.extractLsb'_append_eq_of_add_le,
      BitVec.extractLsb'_eq_self, BitVec.getLsbD_append, BitVec.getLsbD_ofBool, BitVec.reduceGetLsb,
      Reg.ofBits_bits, Nat.reduceSub, Nat.reduceLT, reduceIte, decide_true, Bool.true_and,
      Bool.false_eq_true]

/-! ### Encode after decode -/

theorem encode_decodeTrap (v : BitVec 8) :
    encode (decodeTrap v) = 0b1111#4 ++ 0b0000#4 ++ v := by revert v; decide

theorem decodeTrap_ignoredBits (v : BitVec 8) : (decodeTrap v).ignoredBits = 0x0F00 := by
  revert v; decide

theorem decodeTrap_canonicalFill (v : BitVec 8) : (decodeTrap v).canonicalFill = 0 := by
  revert v; decide

theorem immediateFlag_eq (w : Word) : immediateFlag w = w[5] :=
  BitVec.getLsbD_eq_getElem (show 5 < 16 by decide)

theorem jsrModeFlag_eq (w : Word) : jsrModeFlag w = w[11] :=
  BitVec.getLsbD_eq_getElem (show 11 < 16 by decide)

/-- Settles O9, bit by bit: a bit of a field is copied, the opcode's and the mode's bits are known from
the row that was chosen, and the ignored bits are the canonical ones. -/
theorem encodeAfterDecodeReturnsTheCanonicalWord :
    Obligations.EncodeAfterDecodeReturnsTheCanonicalWord := by
  intro w
  refine BitVec.eq_of_getLsbD_eq fun k hk => ?_
  unfold decode
  cases hop : opcodeOf w <;> obtain ⟨h12, h13, h14, h15⟩ := getElem_of_opcodeOf hop
  case trap =>
    simp only [encode_decodeTrap, decodeTrap_ignoredBits, decodeTrap_canonicalFill, trapvect8,
      BitVec.getLsbD_append, BitVec.getLsbD_extractLsb', BitVec.getLsbD_and, BitVec.getLsbD_or]
    interval_cases k <;> simp [Opcode.bits, *]
  case add | and =>
    cases hmode : w[5] <;>
      simp only [immediateFlag_eq, hmode, Bool.false_eq_true, if_true, if_false, encode,
        Instr.ignoredBits, Instr.canonicalFill, drField, sr1Field, sr2Field, imm5Field,
        Reg.bits_ofBits, BitVec.getLsbD_append, BitVec.getLsbD_extractLsb', BitVec.getLsbD_and,
        BitVec.getLsbD_or] <;>
      interval_cases k <;> simp [Opcode.bits, *]
  case jsr =>
    cases hmode : w[11] <;>
      simp only [jsrModeFlag_eq, hmode, Bool.false_eq_true, if_true, if_false, encode,
        Instr.ignoredBits, Instr.canonicalFill, sr1Field, offset11Field,
        Reg.bits_ofBits, BitVec.getLsbD_append, BitVec.getLsbD_extractLsb', BitVec.getLsbD_and,
        BitVec.getLsbD_or] <;>
      interval_cases k <;> simp [Opcode.bits, *]
  case br | ld | st | ldr | str | rti | not | ldi | sti | jmp | res | lea =>
    simp only [encode, Instr.ignoredBits, Instr.canonicalFill, drField, sr1Field, offset6Field,
      offset9Field, nFlag, zFlag, pFlag, Reg.bits_ofBits, BitVec.getLsbD_append,
      BitVec.getLsbD_extractLsb', BitVec.getLsbD_and, BitVec.getLsbD_or]
    interval_cases k <;> simp [Opcode.bits, *]

/-! ### One row per word -/

/-- No row fixes a bit that its instruction ignores. -/
theorem row_mask_misses_ignoredBits (i : Instr) :
    ~~~i.ignoredBits &&& i.row.mask = i.row.mask ∧ i.canonicalFill &&& i.row.mask = 0 := by
  cases i <;> simp only [Instr.ignoredBits, Instr.canonicalFill, Instr.row] <;> decide

/-- A word has the fixed bits of its own row, since its canonical word has them. -/
theorem decode_row_matches (w : Word) : w &&& (decode w).row.mask = (decode w).row.value := by
  obtain ⟨hign, hfill⟩ := row_mask_misses_ignoredBits (decode w)
  have hrow := encode_and_row_mask (decode w)
  rwa [encodeAfterDecodeReturnsTheCanonicalWord w, BitVec.and_or_distrib_right, hfill,
    BitVec.and_assoc, hign, show (0 : Word) = 0#16 from rfl, BitVec.or_zero] at hrow

/-- TRAP-BADVEC's row, whose mask is tried last (rule R81). -/
def badvecRow : Row := ⟨0xF000, 0xF000⟩

/-- The other rows of the opcode table. -/
def properRows : List Row :=
  [⟨0xF020, 0x1000⟩, ⟨0xF020, 0x1020⟩, ⟨0xF020, 0x5000⟩, ⟨0xF020, 0x5020⟩, ⟨0xF000, 0x9000⟩,
    ⟨0xF000, 0x0000⟩, ⟨0xF000, 0xC000⟩, ⟨0xF800, 0x4800⟩, ⟨0xF800, 0x4000⟩, ⟨0xF000, 0x2000⟩,
    ⟨0xF000, 0xA000⟩, ⟨0xF000, 0x6000⟩, ⟨0xF000, 0xE000⟩, ⟨0xF000, 0x3000⟩, ⟨0xF000, 0xB000⟩,
    ⟨0xF000, 0x7000⟩, ⟨0xF000, 0x8000⟩, ⟨0xF000, 0xD000⟩, ⟨0xF0FF, 0xF020⟩, ⟨0xF0FF, 0xF021⟩,
    ⟨0xF0FF, 0xF022⟩, ⟨0xF0FF, 0xF023⟩, ⟨0xF0FF, 0xF024⟩, ⟨0xF0FF, 0xF025⟩]

theorem row_cases (i : Instr) : i.row = badvecRow ∨ i.row ∈ properRows := by
  cases i <;> simp [properRows, badvecRow, Instr.row]

/-- Two proper rows that agree where both fix a bit are the same row. -/
theorem properRows_disjoint : ∀ r ∈ properRows, ∀ q ∈ properRows,
    r.value &&& q.mask = q.value &&& r.mask → r = q := by decide

/-- A word in two rows makes them agree where both fix a bit. -/
theorem rows_agree {w m v m' v' : Word} (h : w &&& m = v) (h' : w &&& m' = v') :
    v &&& m' = v' &&& m := by
  rw [← h, ← h', BitVec.and_assoc, BitVec.and_assoc, BitVec.and_comm m]

theorem eq_trapBadvec_of_row {i : Instr} (h : i.row = badvecRow) : ∃ v, i = .trapBadvec v := by
  cases i <;> simp [badvecRow, Instr.row] at h ⊢

theorem decode_of_vector {w v : Word} (h : w &&& 0xF0FF = v) (hv : v.extractLsb' 12 4 = 0xF) :
    decode w = decodeTrap (trapvect8 v) := by
  have hop : opcodeOf w = .trap := by
    rw [opcodeOf, opcodeBits, extractLsb'_eq_of_mask h rfl, hv]
    rfl
  rw [decode, hop, trapvect8, extractLsb'_eq_of_mask h rfl, trapvect8]

/-- A word that decodes to TRAP-BADVEC lies in no proper row. -/
theorem row_of_decode_badvec {w : Word} {i : Instr} (hd : (decode w).row = badvecRow)
    (h : w &&& i.row.mask = i.row.value) : i.row = badvecRow := by
  have hop : i.opcode = .trap := by
    obtain ⟨v, hv⟩ := eq_trapBadvec_of_row hd
    rw [← opcodeOf_eq_of_row h, opcodeOf_eq_of_row (decode_row_matches w), hv, Instr.opcode]
  cases i with
  | trapBadvec => rfl
  | trapGetc | trapOut | trapPuts | trapIn | trapPutsp | trapHalt =>
    rw [decode_of_vector h rfl] at hd
    exact absurd hd (by decide)
  | _ => cases hop

/-- Settles O7: a word lies in its own row; two proper rows that share a word are one, and a proper row
wins over TRAP-BADVEC's. -/
theorem everyWordDecodesToItsOneRow : Obligations.EveryWordDecodesToItsOneRow := by
  intro w
  refine ⟨decode_wf w, decode_row_matches w, fun i _ h => ?_⟩
  rcases row_cases i with hi | hi
  · exact .inr hi
  · rcases row_cases (decode w) with hd | hd
    · exact .inr (row_of_decode_badvec hd h)
    · exact .inl (properRows_disjoint _ hi _ hd (rows_agree h (decode_row_matches w)))

/-! ### Ignored bits -/

theorem extractLsb'_flip {w x m : Word} {start len : Nat} (h : m.extractLsb' start len = 0) :
    (w ^^^ (x &&& m)).extractLsb' start len = w.extractLsb' start len := by
  rw [BitVec.extractLsb'_xor, BitVec.extractLsb'_and, h]
  simp

theorem getLsbD_flip {w x m : Word} {n : Nat} (h : m.getLsbD n = false) :
    (w ^^^ (x &&& m)).getLsbD n = w.getLsbD n := by
  rw [BitVec.getLsbD_xor, BitVec.getLsbD_and, h, Bool.and_false, Bool.xor_false]

theorem opcodeOf_flip_ignoredBits (w x : Word) (i : Instr) :
    opcodeOf (w ^^^ (x &&& i.ignoredBits)) = opcodeOf w := by
  have h : i.ignoredBits.extractLsb' 12 4 = 0 := by cases i <;> simp only [Instr.ignoredBits] <;> rfl
  rw [opcodeOf, opcodeBits, extractLsb'_flip h]
  rfl

/-- Settles O10: the opcode and the mode bits stay, so the same row is chosen, and each of its fields
misses the row's ignored bits. -/
theorem ignoredBitsChangeNothing : Obligations.IgnoredBitsChangeNothing := by
  intro w x
  rw [decode, opcodeOf_flip_ignoredBits]
  unfold decode
  cases hop : opcodeOf w with
  | rti | res => rfl
  | trap =>
    simp (disch := decide) only [decodeTrap_ignoredBits, extractLsb'_flip, trapvect8]
  | add | and =>
    cases hmode : w.getLsbD 5 <;>
      simp (disch := decide) only [hmode, Bool.false_eq_true, if_true, if_false, Instr.ignoredBits,
        immediateFlag, getLsbD_flip, extractLsb'_flip, drField, sr1Field, sr2Field, imm5Field]
  | jsr =>
    cases hmode : w.getLsbD 11 <;>
      simp (disch := decide) only [hmode, Bool.false_eq_true, if_true, if_false, Instr.ignoredBits,
        jsrModeFlag, getLsbD_flip, extractLsb'_flip, sr1Field, offset11Field]
  | br | ld | st | ldr | str | not | ldi | sti | jmp | lea =>
    simp (disch := decide) only [Instr.ignoredBits, extractLsb'_flip, getLsbD_flip, drField,
      sr1Field, offset6Field, offset9Field, nFlag, zFlag, pFlag]

/-- Settles O11: the twelve words, decoded one by one. -/
theorem sampleWordsDecode : Obligations.SampleWordsDecode := by
  refine ⟨?_, ?_, ?_, ?_, ?_, ?_, ?_, ?_, ?_, ?_, ?_, ?_⟩ <;> decide

end Sys2Proof
end

section
/-! What every arm of `exec` keeps (10_state.md, 40_step.md, 60_exceptions.md): parameters, memory form and
the registers it may not write; how it ends; and when it does not. One case split over the instructions
for each, then the statements about a step. -/

namespace Sys2Proof.Machine

/-! ### The arms that are not named yet -/

theorem exec_ldi (dr : Reg) (off9 : BitVec 9) (s : State) : exec (.ldi dr off9) s =
    loadFrom dr (indirect off9 s).1 (indirect off9 s).2 := rfl

theorem exec_sti (sr : Reg) (off9 : BitVec 9) (s : State) : exec (.sti sr off9) s =
    .next (memWrite (indirect off9 s).1 ((indirect off9 s).2.readReg sr) (indirect off9 s).2) := rfl

theorem exec_trapGetc (s : State) : exec .trapGetc s =
    readThen (trapEntry s) fun b t => .next (writeResult .r0 (zextByte b) t) := rfl

theorem exec_trapOut (s : State) : exec .trapOut s =
    .next ((trapEntry s).writeByte (lowByte (s.readReg .r0))).flush := rfl

theorem exec_trapPuts (s : State) : exec .trapPuts s = putString putsChars (trapEntry s) := rfl

theorem exec_trapIn (s : State) : exec .trapIn s =
    readThen ((trapEntry s).writeBytes s.params.inPrompt).flush fun b t =>
      .next (writeResult .r0 (zextByte b) (t.writeByte b).flush) := rfl

theorem exec_trapPutsp (s : State) : exec .trapPutsp s = putString putspChars (trapEntry s) := rfl

theorem exec_trapHalt (s : State) : exec .trapHalt s =
    haltMachine ((trapEntry s).writeBytes s.params.haltNotice).flush := rfl

theorem exec_trapBadvec (v : BitVec 8) (s : State) : exec (.trapBadvec v) s =
    raiseFault (.unknownTrapVector v) (trapEntry s) := rfl

/-! ### The frame of an arm -/

/-- Rule R21 lets the instruction write the register, or it is R7 of a linking TRAP (decision D13). -/
def MayWrite (i : Instr) (s : State) (r : Reg) : Prop :=
  r ∈ i.writtenRegs ∨ (i.isTrap = true ∧ s.params.trapLinksR7 = true ∧ r = .r7)

/-- t keeps the parameters, the memory's form and the registers that i, run on s, may not write. -/
structure ArmFrame (i : Instr) (s t : State) : Prop where
  params : t.params = s.params
  wf : s.mem.wf = true → t.mem.wf = true
  regs : ∀ r, ¬ MayWrite i s r → t.readReg r = s.readReg r

namespace ArmFrame

variable {i : Instr} {s t u : State}

theorem refl : ArmFrame i s s := ⟨rfl, id, fun _ _ => rfl⟩

/-- Console, COND, PC and run state are no part of the frame. -/
theorem of_eq (h : ArmFrame i s u) (hp : t.params = u.params) (hm : t.mem = u.mem)
    (hr : t.regs = u.regs) : ArmFrame i s t :=
  ⟨hp.trans h.params, fun hw => hm ▸ h.wf hw, fun r hn => by
    rw [← h.regs r hn, State.readReg, State.readReg, hr]⟩

theorem devices (h : ArmFrame i s u) (hd : DevicesOnly u t) : ArmFrame i s t :=
  ⟨hd.params.trans h.params, hd.wf ∘ h.wf, fun r hn => (hd.readReg r).trans (h.regs r hn)⟩

theorem memWrite (h : ArmFrame i s u) (a v : Word) : ArmFrame i s (memWrite a v u) :=
  ⟨h.params, fun hw => u.mem.wf_write a v (h.wf hw), h.regs⟩

theorem writeReg {r : Reg} (h : ArmFrame i s u) (hr : MayWrite i s r) (v : Word) :
    ArmFrame i s (u.writeReg r v) :=
  ⟨h.params, h.wf, fun q hq => by
    have hne : q ≠ r := fun e => hq (e ▸ hr)
    rw [u.readReg_writeReg_ne v hne, h.regs q hq]⟩

theorem writeResult {r : Reg} (h : ArmFrame i s u) (hr : i.writtenRegs = [r]) (v : Word) :
    ArmFrame i s (writeResult r v u) :=
  (h.writeReg (.inl (by simp [hr])) v).of_eq rfl rfl rfl

theorem trapEntry (hi : i.isTrap = true) : ArmFrame i s (trapEntry s) := by
  rcases trapEntry_cases s with ⟨hl, e⟩ | ⟨-, e⟩ <;> rw [e]
  · exact refl.writeReg (.inr ⟨hi, hl, rfl⟩) _
  · exact refl

theorem loadFrom {dr : Reg} {ea : Word} (h : ArmFrame i s u) (hr : i.writtenRegs = [dr])
    (ht : loadFrom dr ea u = .next t) : ArmFrame i s t := by
  cases ht
  exact (h.devices (devicesOnly_memRead ea u)).writeResult hr _

theorem readThen {k : Byte → State → StepResult} (h : ArmFrame i s u)
    (hk : ∀ b c, ArmFrame i s (u.setConsole c) → k b (u.setConsole c) = .next t → ArmFrame i s t)
    (ht : readThen u k = .next t) : ArmFrame i s t := by
  rcases readThen_next ht with ⟨b, c, hb⟩ | rfl
  · exact hk b c (h.of_eq rfl rfl rfl) hb
  · exact h.of_eq rfl rfl rfl

theorem putString {chars : Word → List Byte} (h : ArmFrame i s u)
    (ht : putString chars u = .next t) : ArmFrame i s t := by
  obtain ⟨v, hv, rfl | rfl⟩ := putString_next ht
  · exact (h.devices hv).of_eq rfl rfl rfl
  · exact (h.devices hv).of_eq rfl rfl rfl

end ArmFrame

/-- What an arm of `exec` keeps, whichever it is. -/
theorem exec_frame {i : Instr} {s t : State} (h : exec i s = .next t) : ArmFrame i s t := by
  cases i with
  | addReg | addImm | andReg | andImm | notReg | lea => cases h; exact .writeResult .refl rfl _
  | br n z p off9 =>
    cases h
    split
    · exact .of_eq .refl rfl rfl rfl
    · exact .refl
  | jmp | rti | res => cases h; exact .of_eq .refl rfl rfl rfl
  | jsr | jsrr =>
    cases h
    exact .of_eq (.writeReg .refl (.inl (List.mem_singleton.mpr rfl)) s.pc) rfl rfl rfl
  | ld | ldr => exact .loadFrom .refl rfl h
  | ldi => exact .loadFrom (.devices .refl (devicesOnly_memRead _ s)) rfl h
  | st | str => cases h; exact .memWrite .refl _ _
  | sti => cases h; exact .memWrite (.devices .refl (devicesOnly_memRead _ s)) _ _
  | trapGetc =>
    rw [exec_trapGetc] at h
    refine .readThen (.trapEntry rfl) (fun b c hc hb => ?_) h
    cases hb
    exact hc.writeResult rfl _
  | trapIn =>
    rw [exec_trapIn] at h
    have prompted := (devicesOnly_writeBytes (trapEntry s) s.params.inPrompt).trans
      (devicesOnly_flush _)
    refine .readThen (.devices (.trapEntry rfl) prompted) (fun b c hc hb => ?_) h
    cases hb
    exact (hc.devices ((devicesOnly_writeByte _ b).trans (devicesOnly_flush _))).writeResult rfl _
  | trapPuts | trapPutsp => exact .putString (.trapEntry rfl) h
  | trapOut => cases h; exact .of_eq (.trapEntry rfl) rfl rfl rfl
  | trapHalt =>
    cases h
    exact .of_eq (.devices (.trapEntry rfl) (devicesOnly_writeBytes _ _)) rfl rfl rfl
  | trapBadvec => cases h; exact .of_eq (.trapEntry rfl) rfl rfl rfl

/-! ### The statements about parameters, memory and registers -/

/-- Settles O53: the fetch touches only the devices, and the arm keeps the form. -/
theorem everyStepKeepsTheInvariant : Obligations.EveryStepKeepsTheInvariant := by
  intro s t hs h
  exact (exec_frame (step_next h).2).wf ((devicesOnly_memRead s.pc s).wf hs)

theorem exec_keeps_flag {i : Instr} {s t : State} (h : exec i s = .next t)
    (hs : s.cond ≠ .noFlag) : t.cond ≠ .noFlag := by
  rcases exec_cond_cases h with ⟨-, r, v, u, -, -, rfl⟩ | ⟨hcond, -⟩
  · exact condOf_ne_noFlag v
  · rwa [hcond]

/-- Settles O54: the arm's frame, and the two ways it can leave COND. -/
theorem everyStepKeepsAFlagAndTheParameters : Obligations.EveryStepKeepsAFlagAndTheParameters := by
  intro s t h
  have fetched := devicesOnly_memRead s.pc s
  obtain ⟨-, harm⟩ := step_next h
  refine ⟨(exec_frame harm).params.trans fetched.params, fun hs => exec_keeps_flag harm ?_⟩
  rwa [fetch_snd, State.setPc_cond, fetched.cond]

/-- Settles O56, from the arm's frame. -/
theorem onlyListedRegistersAreWritten : Obligations.OnlyListedRegistersAreWritten := by
  intro i s t r h hne
  exact Classical.byContradiction fun hw => hne ((exec_frame h).regs r hw)

/-! ### The end of an arm -/

/-- How an arm that answers a next state ends (rules R95, R171, R172). -/
inductive ArmEnd (i : Instr) (s t : State) : Prop where
  | goesOn (hi : i ≠ .trapHalt) (hrun : t.runState = s.runState)
  | halts (hi : i = .trapHalt) (hrun : t.runState = .halted)
  | faults (r : FaultReason) (hi : i.mayFaultFor r = true) (hrun : t.runState = .faulted r)
      (hpc : t.pc = s.pc)

theorem readThen_end {i : Instr} {s u t : State} {k : Byte → State → StepResult}
    (hi : i.mayFaultFor .endOfInput = true) (hpc : u.pc = s.pc)
    (hk : ∀ b c, k b (u.setConsole c) = .next t → ArmEnd i s t) (h : readThen u k = .next t) :
    ArmEnd i s t := by
  rcases readThen_next h with ⟨b, c, hb⟩ | rfl
  · exact hk b c hb
  · exact .faults _ hi rfl hpc

theorem putString_end {i : Instr} {s t : State} {chars : Word → List Byte}
    (hi : i.mayFaultFor .unterminatedString = true) (hhalt : i ≠ .trapHalt)
    (h : putString chars (trapEntry s) = .next t) : ArmEnd i s t := by
  obtain ⟨u, hu, rfl | rfl⟩ := putString_next h
  · exact .goesOn hhalt (hu.runState.trans (trapEntry_runState s))
  · exact .faults _ hi rfl (hu.pc.trans (trapEntry_pc s))

theorem exec_end {i : Instr} {s t : State} (h : exec i s = .next t) : ArmEnd i s t := by
  cases i with
  | addReg | addImm | andReg | andImm | notReg | lea | jmp | jsr | jsrr | st | str =>
    cases h; exact .goesOn nofun rfl
  | br n z p off9 =>
    cases h
    refine .goesOn nofun ?_
    split <;> rfl
  | ld | ldr | sti => cases h; exact .goesOn nofun (devicesOnly_memRead _ s).runState
  | ldi =>
    cases h
    exact .goesOn nofun ((devicesOnly_memRead _ s).trans (devicesOnly_memRead _ _)).runState
  | rti | res => cases h; exact .faults _ rfl rfl rfl
  | trapGetc =>
    rw [exec_trapGetc] at h
    refine readThen_end rfl (trapEntry_pc s) (fun b c hb => ?_) h
    cases hb
    exact .goesOn nofun (trapEntry_runState s)
  | trapIn =>
    rw [exec_trapIn] at h
    refine readThen_end rfl (by simp) (fun b c hb => ?_) h
    cases hb
    exact .goesOn nofun (by simp)
  | trapPuts | trapPutsp => exact putString_end rfl nofun h
  | trapOut => cases h; exact .goesOn nofun (trapEntry_runState s)
  | trapHalt => cases h; exact .halts rfl rfl
  | trapBadvec v => cases h; exact .faults _ (by simp [Instr.mayFaultFor]) rfl (trapEntry_pc s)

theorem step_end {s t : State} (h : step s = .next t) :
    ArmEnd (decode (fetch s).1) (fetch s).2 t := exec_end (step_next h).2

theorem fetch_runState (s : State) : (fetch s).2.runState = s.runState :=
  (devicesOnly_memRead s.pc s).runState

/-- Settles O57: of the three ends only TRAP HALT's is HALTED. -/
theorem haltOnlyByTrapHalt : Obligations.HaltOnlyByTrapHalt := by
  intro s t hrun h
  cases step_end h with
  | goesOn hi ht =>
    rw [ht, fetch_runState, hrun]
    exact ⟨nofun, fun e => absurd e hi⟩
  | halts hi ht => exact ⟨fun _ => hi, fun _ => ht⟩
  | faults r hi ht =>
    refine ⟨fun hhalt => ?_, fun hhalt => ?_⟩
    · cases ht.symm.trans hhalt
    · rw [hhalt] at hi
      cases hi

/-- Settles O58: of the three ends only a fault is FAULTED, and it keeps the PC of the fetch. -/
theorem eachFaultBelongsToItsOpcode : Obligations.EachFaultBelongsToItsOpcode := by
  intro s t r hrun h hfault
  cases step_end h with
  | goesOn hi ht =>
    rw [ht, fetch_runState, hrun] at hfault
    cases hfault
  | halts hi ht => cases ht.symm.trans hfault
  | faults q hi ht hpc =>
    cases ht.symm.trans hfault
    exact ⟨hi, hpc⟩

/-! ### When an arm does not end -/

theorem exec_completes (i : Instr) (s : State) :
    (∃ t, exec i s = .next t) ∨
    (exec i s = .fault .readNeverReturns ∧ (i = .trapGetc ∨ i = .trapIn) ∧
      s.console.input = [] ∧ s.console.tail = .neverSupplied) := by
  cases i with
  | trapGetc =>
    rw [exec_trapGetc]
    rcases readThen_cases (trapEntry s) _ with ⟨b, c, -, e⟩ | ⟨-, -, e⟩ | ⟨hin, htail, e⟩
    · exact .inl ⟨_, e⟩
    · exact .inl ⟨_, e⟩
    · rw [trapEntry_console] at hin htail
      exact .inr ⟨e, .inl rfl, hin, htail⟩
  | trapIn =>
    rw [exec_trapIn]
    rcases readThen_cases ((trapEntry s).writeBytes s.params.inPrompt).flush _ with
      ⟨b, c, -, e⟩ | ⟨-, -, e⟩ | ⟨hin, htail, e⟩
    · exact .inl ⟨_, e⟩
    · exact .inl ⟨_, e⟩
    · rw [State.writeBytes_eq, trapEntry_console] at hin htail
      exact .inr ⟨e, .inr rfl, hin, htail⟩
  | trapPuts | trapPutsp =>
    left
    rcases putString_cases _ (trapEntry s) with ⟨t, -, e⟩ | ⟨t, -, e⟩
    · exact ⟨_, e⟩
    · exact ⟨_, e⟩
  | _ => exact .inl ⟨_, rfl⟩

/-- Settles O59: only the blocking read of GETC and IN can wait, on the console the fetch leaves. -/
theorem onlyABlockingReadCanWait : Obligations.OnlyABlockingReadCanWait := by
  intro s hrun
  rw [step_of_running hrun]
  exact exec_completes _ _

end Sys2Proof.Machine
end

section
/-! Noninterference of the console record (40_step.md section 3, rule R98). Two states that differ only in
how their records begin are run side by side: every operation answers alike in both and appends the same
calls, so the states it leaves differ only there again. -/

namespace Sys2Proof.Machine

/-! ### Two consoles, two states and two outcomes that differ in the beginning of the record -/

/-- c and c' differ at most in that the record of c begins with pre and that of c' with pre'. -/
def ConsolesAlike (pre pre' : List ConsoleEvent) (c c' : Console) : Prop :=
  ∃ new, c.events = pre ++ new ∧ c' = { c with events := pre' ++ new }

/-- The same of two states. -/
structure StatesAlike (pre pre' : List ConsoleEvent) (s s' : State) : Prop where
  console : ConsolesAlike pre pre' s.console s'.console
  rest : s' = s.setConsole s'.console

/-- Two outcomes that are the same fault, or next states alike. -/
inductive OutcomesAlike (pre pre' : List ConsoleEvent) : StepResult → StepResult → Prop where
  | next {t t' : State} : StatesAlike pre pre' t t' → OutcomesAlike pre pre' (.next t) (.next t')
  | fault (f : Fault) : OutcomesAlike pre pre' (.fault f) (.fault f)

section
variable {pre pre' : List ConsoleEvent} {c c' : Console} {s s' : State}

/-! ### The console -/

theorem ConsolesAlike.log (h : ConsolesAlike pre pre' c c') (e : ConsoleEvent) :
    ConsolesAlike pre pre' (c.log e) (c'.log e) := by
  obtain ⟨new, hev, rfl⟩ := h
  exact ⟨new ++ [e], by simp [hev], by simp [Console.log]⟩

theorem ConsolesAlike.hasInput (h : ConsolesAlike pre pre' c c') : c'.hasInput = c.hasInput := by
  obtain ⟨new, hev, rfl⟩ := h
  rfl

theorem ConsolesAlike.pollDraw (h : ConsolesAlike pre pre' c c') :
    c'.pollDraw.1 = c.pollDraw.1 ∧ ConsolesAlike pre pre' c.pollDraw.2 c'.pollDraw.2 := by
  obtain ⟨new, hev, rfl⟩ := h
  rcases c with ⟨input, tail, _ | ⟨d, ds⟩, draws, events⟩ <;> exact ⟨rfl, new, hev, rfl⟩

theorem ConsolesAlike.pollHasInput (h : ConsolesAlike pre pre' c c') :
    c'.pollHasInput.1 = c.pollHasInput.1 ∧
      ConsolesAlike pre pre' c.pollHasInput.2 c'.pollHasInput.2 := by
  have hanswer : c'.pollHasInput.1 = c.pollHasInput.1 := by
    rw [Console.pollHasInput, Console.pollHasInput, h.hasInput, h.pollDraw.1]
  refine ⟨hanswer, ?_⟩
  change ConsolesAlike pre pre' (c.pollDraw.2.log (.poll c.pollHasInput.1))
    (c'.pollDraw.2.log (.poll c'.pollHasInput.1))
  rw [hanswer]
  exact h.pollDraw.2.log _

theorem ConsolesAlike.takeByte (h : ConsolesAlike pre pre' c c') :
    (c.takeByte = none ∧ c'.takeByte = none) ∨
    ∃ b d d', c.takeByte = some (b, d) ∧ c'.takeByte = some (b, d') ∧
      ConsolesAlike pre pre' d d' := by
  obtain ⟨new, hev, rfl⟩ := h
  rcases c with ⟨_ | ⟨b, bs⟩, tail, polls, draws, events⟩
  · cases tail with
    | endOfInput | neverSupplied => exact .inl ⟨rfl, rfl⟩
    | unknown =>
      refine .inr ⟨_, _, _, rfl, rfl, ConsolesAlike.log ?_ _⟩
      exact ⟨new, hev, rfl⟩
  · refine .inr ⟨_, _, _, rfl, rfl, ConsolesAlike.log ?_ _⟩
    exact ⟨new, hev, rfl⟩

theorem ConsolesAlike.readCharBlocking (h : ConsolesAlike pre pre' c c') :
    c'.readCharBlocking.1 = c.readCharBlocking.1 ∧
      ConsolesAlike pre pre' c.readCharBlocking.2 c'.readCharBlocking.2 := by
  have htail : c'.tail = c.tail := by
    obtain ⟨new, -, rfl⟩ := h
    rfl
  unfold Console.readCharBlocking
  rcases h.takeByte with ⟨e, e'⟩ | ⟨b, d, d', e, e', hd⟩ <;> rw [e, e']
  · simp only [htail]
    cases c.tail with
    | endOfInput => exact ⟨rfl, h.log _⟩
    | neverSupplied | unknown => exact ⟨rfl, h⟩
  · exact ⟨rfl, hd⟩

/-! ### The operations on a state -/

/-- An update that neither reads nor writes the console. -/
theorem StatesAlike.update (h : StatesAlike pre pre' s s') (f : State → State)
    (hc : (f s).console = s.console) (hf : ∀ c, f (s.setConsole c) = (f s).setConsole c) :
    StatesAlike pre pre' (f s) (f s') := by
  obtain ⟨hcons, hrest⟩ := h
  rw [hrest, hf]
  exact ⟨by rwa [hc], rfl⟩

theorem StatesAlike.setConsole (h : StatesAlike pre pre' s s') (hc : ConsolesAlike pre pre' c c') :
    StatesAlike pre pre' (s.setConsole c) (s'.setConsole c') := by
  obtain ⟨-, hrest⟩ := h
  rw [hrest]
  exact ⟨hc, rfl⟩

theorem StatesAlike.regs (h : StatesAlike pre pre' s s') : s'.regs = s.regs := by rw [h.rest]; rfl
theorem StatesAlike.pc (h : StatesAlike pre pre' s s') : s'.pc = s.pc := by rw [h.rest]; rfl
theorem StatesAlike.mem (h : StatesAlike pre pre' s s') : s'.mem = s.mem := by rw [h.rest]; rfl
theorem StatesAlike.params (h : StatesAlike pre pre' s s') : s'.params = s.params := by
  rw [h.rest]; rfl

theorem StatesAlike.readReg (h : StatesAlike pre pre' s s') (r : Reg) :
    s'.readReg r = s.readReg r := by rw [State.readReg, h.regs, State.readReg]

theorem StatesAlike.setMem (h : StatesAlike pre pre' s s') (m : Memory) :
    StatesAlike pre pre' (s.setMem m) (s'.setMem m) := h.update (·.setMem m) rfl fun _ => rfl

theorem StatesAlike.log (h : StatesAlike pre pre' s s') (e : ConsoleEvent) :
    StatesAlike pre pre' (s.setConsole (s.console.log e)) (s'.setConsole (s'.console.log e)) :=
  h.setConsole (h.console.log e)

theorem StatesAlike.writeBytes (h : StatesAlike pre pre' s s') (bs : List Byte) :
    StatesAlike pre pre' (s.writeBytes bs) (s'.writeBytes bs) := by
  induction bs generalizing s s' with
  | nil => exact h
  | cons b bs ih => exact ih (h.log (.write b))

theorem StatesAlike.trapEntry (h : StatesAlike pre pre' s s') :
    StatesAlike pre pre' (trapEntry s) (trapEntry s') := by
  refine h.update Machine.trapEntry (trapEntry_console s) fun c => ?_
  unfold Machine.trapEntry
  rw [State.setConsole_params]
  split <;> rfl

theorem StatesAlike.pollKeyboard (h : StatesAlike pre pre' s s') :
    StatesAlike pre pre' (pollKeyboard s) (pollKeyboard s') := by
  obtain ⟨hanswer, hpoll⟩ := h.console.pollHasInput
  rcases pollKeyboard_cases s with ⟨b, d, htrue, hbyte, e⟩ | ⟨hfalse, e⟩
  · rcases pollKeyboard_cases s' with ⟨b', d', -, hbyte', e'⟩ | ⟨hfalse', -⟩
    · rcases hpoll.takeByte with ⟨hnone, -⟩ | ⟨b₀, d₀, d₀', h₀, h₀', hd⟩
      · cases hbyte.symm.trans hnone
      · cases hbyte.symm.trans h₀
        cases hbyte'.symm.trans h₀'
        rw [e, e', h.mem]
        exact (h.setConsole hd).setMem _
    · simp [hanswer, htrue] at hfalse'
  · rcases pollKeyboard_cases s' with ⟨b', d', htrue', -⟩ | ⟨-, e'⟩
    · simp [hanswer, hfalse] at htrue'
    · rw [e, e', h.mem]
      exact (h.setConsole hpoll).setMem _

theorem StatesAlike.memRead (h : StatesAlike pre pre' s s') (a : Word) :
    (memRead a s').1 = (memRead a s).1 ∧ StatesAlike pre pre' (memRead a s).2 (memRead a s').2 := by
  by_cases ha : a = kbsrAddr
  · subst ha
    rw [memRead_kbsr, memRead_kbsr, h.pollKeyboard.mem]
    exact ⟨rfl, h.pollKeyboard⟩
  · rw [memRead_of_ne s ha, memRead_of_ne s' ha, h.mem]
    exact ⟨rfl, h⟩

theorem StatesAlike.stringRead (h : StatesAlike pre pre' s s') (a : Word) :
    (stringRead a s').1 = (stringRead a s).1 ∧
      StatesAlike pre pre' (stringRead a s).2 (stringRead a s').2 := by
  unfold Machine.stringRead
  rw [h.params]
  split
  · exact h.memRead a
  · rw [rawRead_eq, rawRead_eq, h.mem]
    exact ⟨rfl, h⟩

theorem StatesAlike.scanString (h : StatesAlike pre pre' s s') (chars : Word → List Byte) (n : Nat)
    (a : Word) :
    (scanString chars n a s').1 = (scanString chars n a s).1 ∧
      StatesAlike pre pre' (scanString chars n a s).2 (scanString chars n a s').2 := by
  induction n generalizing a s s' with
  | zero => exact ⟨rfl, h⟩
  | succ n ih =>
    obtain ⟨hcell, hread⟩ := h.stringRead a
    simp only [Machine.scanString, hcell]
    split
    · exact ⟨rfl, hread⟩
    · exact ih (hread.writeBytes _) _

/-! ### The shared ends of an arm -/

theorem OutcomesAlike.loadFrom (h : StatesAlike pre pre' s s') (dr : Reg) (ea : Word) :
    OutcomesAlike pre pre' (loadFrom dr ea s) (loadFrom dr ea s') := by
  obtain ⟨hcell, hread⟩ := h.memRead ea
  rw [loadFrom_eq, loadFrom_eq, hcell]
  exact .next (hread.update (writeResult dr _) rfl fun _ => rfl)

theorem OutcomesAlike.raiseFault (h : StatesAlike pre pre' s s') (r : FaultReason) :
    OutcomesAlike pre pre' (raiseFault r s) (raiseFault r s') :=
  .next (h.update (·.setRunState (.faulted r)) rfl fun _ => rfl)

theorem OutcomesAlike.readThen (h : StatesAlike pre pre' s s') {k : Byte → State → StepResult}
    (hk : ∀ b {u u'}, StatesAlike pre pre' u u' → OutcomesAlike pre pre' (k b u) (k b u')) :
    OutcomesAlike pre pre' (readThen s k) (readThen s' k) := by
  have hread := h.console.readCharBlocking
  unfold Machine.readThen
  rcases e : s.console.readCharBlocking with ⟨answer, d⟩
  rcases e' : s'.console.readCharBlocking with ⟨answer', d'⟩
  rw [e, e'] at hread
  obtain ⟨rfl, hd⟩ : answer' = answer ∧ ConsolesAlike pre pre' d d' := hread
  cases answer' with
  | byte b => exact hk b (h.setConsole hd)
  | endOfInput => exact .raiseFault (h.setConsole hd) _
  | never => exact .fault _

/-- Cutting two records behind what they held before the scan. -/
theorem StatesAlike.truncateOutput (h : StatesAlike pre pre' s s') :
    StatesAlike pre pre' (truncateOutput pre.length s) (truncateOutput pre'.length s') := by
  obtain ⟨⟨new, hev, hcons⟩, hrest⟩ := h
  rw [hrest, hcons]
  refine ⟨⟨keepWrites (Config.freeOutputLength s.console.draws) new, ?_, ?_⟩, rfl⟩
  · simp [Machine.truncateOutput, hev]
  · simp [Machine.truncateOutput]

theorem ConsolesAlike.trans {d d' : Console} (h : ConsolesAlike pre pre' c c')
    (hd : ConsolesAlike c.events c'.events d d') : ConsolesAlike pre pre' d d' := by
  obtain ⟨new, hev, rfl⟩ := h
  obtain ⟨more, hev', rfl⟩ := hd
  exact ⟨new ++ more, by rw [hev', hev, List.append_assoc], by simp⟩

theorem OutcomesAlike.putString (h : StatesAlike pre pre' s s') (chars : Word → List Byte) :
    OutcomesAlike pre pre' (putString chars s) (putString chars s') := by
  have start : StatesAlike s.console.events s'.console.events s s' := by
    refine ⟨⟨[], by simp, ?_⟩, h.rest⟩
    obtain ⟨new, -, hcons⟩ := h.console
    rw [hcons]
    simp
  have widen {u u' : State} (hu : StatesAlike s.console.events s'.console.events u u') :
      StatesAlike pre pre' u u' := ⟨h.console.trans hu.console, hu.rest⟩
  obtain ⟨hfound, hscan⟩ := start.scanString chars memorySize (s.readReg .r0)
  unfold Machine.putString
  simp only [h.readReg, hfound]
  split
  · exact .next ((widen hscan).log .flush)
  · exact .raiseFault (widen hscan.truncateOutput) _

/-! ### The arms and the step -/

theorem StatesAlike.pcRelative (h : StatesAlike pre pre' s s') {n : Nat} (off : BitVec n) :
    pcRelative off s' = pcRelative off s := by rw [Machine.pcRelative, h.pc, Machine.pcRelative]

theorem StatesAlike.basePlusOffset (h : StatesAlike pre pre' s s') (base : Reg) (off6 : BitVec 6) :
    basePlusOffset base off6 s' = basePlusOffset base off6 s := by
  rw [Machine.basePlusOffset, h.readReg, Machine.basePlusOffset]

theorem StatesAlike.indirect (h : StatesAlike pre pre' s s') (off9 : BitVec 9) :
    (indirect off9 s').1 = (indirect off9 s).1 ∧
      StatesAlike pre pre' (indirect off9 s).2 (indirect off9 s').2 := by
  unfold Machine.indirect
  rw [h.pcRelative]
  exact h.memRead _

theorem OutcomesAlike.update (h : StatesAlike pre pre' s s') (f : State → State)
    (hc : (f s).console = s.console) (hf : ∀ c, f (s.setConsole c) = (f s).setConsole c) :
    OutcomesAlike pre pre' (.next (f s)) (.next (f s')) := .next (h.update f hc hf)

/-- An arm that is one update of the state, away from the console. -/
theorem OutcomesAlike.of_arm {i : Instr} {f : State → State} (h : StatesAlike pre pre' s s')
    (harm : ∀ u, exec i u = .next (f u)) (hc : (f s).console = s.console)
    (hf : ∀ c, f (s.setConsole c) = (f s).setConsole c) :
    OutcomesAlike pre pre' (exec i s) (exec i s') := by
  rw [harm, harm]
  exact .update h f hc hf

theorem exec_alike (i : Instr) (h : StatesAlike pre pre' s s') :
    OutcomesAlike pre pre' (exec i s) (exec i s') := by
  cases i with
  | addReg | addImm | andReg | andImm | notReg | lea | jmp | jsr | jsrr | st | str | rti | res =>
    exact .of_arm h (fun _ => rfl) rfl fun _ => rfl
  | br n z p off9 =>
    refine .of_arm h (fun _ => rfl) ?_ fun c => ?_
    · split <;> rfl
    · rw [State.setConsole_cond]
      split <;> rfl
  | ld dr off9 =>
    rw [exec_ld, exec_ld, h.pcRelative]
    exact .loadFrom h _ _
  | ldr dr base off6 =>
    rw [exec_ldr, exec_ldr, h.basePlusOffset]
    exact .loadFrom h _ _
  | ldi dr off9 =>
    obtain ⟨hptr, hread⟩ := h.indirect off9
    rw [exec_ldi, exec_ldi, hptr]
    exact .loadFrom hread _ _
  | sti sr off9 =>
    obtain ⟨hptr, hread⟩ := h.indirect off9
    rw [exec_sti, exec_sti, hptr]
    exact .update hread (fun s => memWrite _ (s.readReg sr) s) rfl fun _ => rfl
  | trapGetc =>
    exact .readThen h.trapEntry fun b _ _ hu =>
      .update hu (writeResult .r0 (zextByte b)) rfl fun _ => rfl
  | trapIn =>
    rw [exec_trapIn, exec_trapIn, h.params]
    refine .readThen ((h.trapEntry.writeBytes _).log .flush) fun b u u' hu => ?_
    exact .update ((hu.log (.write b)).log .flush) (writeResult .r0 (zextByte b)) rfl fun _ => rfl
  | trapPuts | trapPutsp => exact .putString h.trapEntry _
  | trapOut =>
    rw [exec_trapOut, exec_trapOut, h.readReg]
    exact .next ((h.trapEntry.log (.write _)).log .flush)
  | trapHalt =>
    rw [exec_trapHalt, exec_trapHalt, h.params]
    exact .update ((h.trapEntry.writeBytes _).log .flush) (·.setRunState .halted) rfl fun _ => rfl
  | trapBadvec v => exact .raiseFault h.trapEntry _

end

theorem StatesAlike.step {pre pre' : List ConsoleEvent} {s s' : State}
    (h : StatesAlike pre pre' s s') (hrun : s.runState = .running) :
    OutcomesAlike pre pre' (step s) (step s') := by
  obtain ⟨hword, hread⟩ := h.memRead s.pc
  have hrun' : s'.runState = .running := by rwa [h.rest]
  rw [step_of_running hrun, step_of_running hrun', fetch_fst, fetch_snd, fetch_fst, fetch_snd, h.pc,
    hword]
  exact exec_alike _ (hread.update (·.setPc (s.pc + 1)) rfl fun _ => rfl)

theorem OutcomesAlike.of_next {pre pre' : List ConsoleEvent} {t : State} {r : StepResult}
    (h : OutcomesAlike pre pre' (.next t) r) : ∃ t', r = .next t' ∧ StatesAlike pre pre' t t' := by
  cases h with
  | next ht => exact ⟨_, rfl, ht⟩

/-- Settles O60: the two fetched words and the two arms are alike. -/
theorem theConsoleRecordIsNeverRead : Obligations.TheConsoleRecordIsNeverRead := by
  intro s t es h
  have start : StatesAlike s.console.events es s (s.withEvents es) :=
    ⟨⟨[], by simp, by simp [State.withEvents]⟩, rfl⟩
  have steps := start.step (step_next h).1
  rw [h] at steps
  obtain ⟨t', ht', ⟨new, hev, hcons⟩, hrest⟩ := steps.of_next
  refine ⟨new, hev, ?_⟩
  rw [ht', hrest, hcons, State.withEvents]

end Sys2Proof.Machine
end

section
/-! Memory as data and the object-file image (10_state.md section 6, 20_memory.md sections 1 and 2,
70_reset_and_hazards.md section 2): canonical memories are determined by their reads, and an image is
stored word by word. -/

namespace Sys2Proof.Machine

/-! ### A canonical memory is determined by what it reads -/

theorem canonicalCells_cons {k : Nat} {v : Word} {rest : List Cell}
    (h : canonicalCells ((k, v) :: rest) = true) :
    k < memorySize ∧ v ≠ unlistedWord ∧ (∀ c ∈ rest, k < c.1) ∧ canonicalCells rest = true := by
  simp only [canonicalCells, Bool.and_eq_true, decide_eq_true_eq, List.all_eq_true] at h
  obtain ⟨⟨⟨hk, hv⟩, hall⟩, hrest⟩ := h
  exact ⟨hk, hv, hall, hrest⟩

theorem lookupCell_of_below {l : List Cell} {a : Nat} (h : ∀ c ∈ l, a < c.1) :
    lookupCell l a = unlistedWord := by
  induction l with
  | nil => rfl
  | cons c rest ih =>
    rw [lookupCell, if_neg (Nat.ne_of_lt (h c (List.mem_cons_self ..)))]
    exact ih fun d hd => h d (List.mem_cons_of_mem _ hd)

theorem lookupCell_head (k : Nat) (v : Word) (rest : List Cell) :
    lookupCell ((k, v) :: rest) k = v := if_pos rfl

/-- A list whose first key is k reads as unlisted below k, so no canonical list that reads alike has a
cell there. -/
theorem not_lt_of_reads_alike {l m : List Cell} {k : Nat} {v : Word}
    (hl : canonicalCells ((k, v) :: l) = true) (hm : ∀ c ∈ m, k < c.1)
    (h : ∀ a < memorySize, lookupCell ((k, v) :: l) a = lookupCell m a) : False := by
  obtain ⟨hk, hv, -⟩ := canonicalCells_cons hl
  have hread := h k hk
  rw [lookupCell_head, lookupCell_of_below hm] at hread
  exact hv hread

theorem canonicalCells_ext {l m : List Cell} (hl : canonicalCells l = true)
    (hm : canonicalCells m = true) (h : ∀ a < memorySize, lookupCell l a = lookupCell m a) :
    l = m := by
  induction l generalizing m with
  | nil =>
    cases m with
    | nil => rfl
    | cons d ds => exact (not_lt_of_reads_alike hm (by simp) fun a ha => (h a ha).symm).elim
  | cons c cs ih =>
    cases m with
    | nil => exact (not_lt_of_reads_alike hl (by simp) h).elim
    | cons d ds =>
      obtain ⟨k, v⟩ := c
      obtain ⟨j, w⟩ := d
      obtain ⟨hk, -, hkcs, hcs⟩ := canonicalCells_cons hl
      obtain ⟨-, -, hjds, hds⟩ := canonicalCells_cons hm
      rcases Nat.lt_trichotomy k j with hlt | rfl | hlt
      · refine (not_lt_of_reads_alike hl (fun c hc => ?_) h).elim
        rcases List.mem_cons.mp hc with rfl | hc
        · exact hlt
        · exact Nat.lt_trans hlt (hjds c hc)
      · have hvw : v = w := by simpa only [lookupCell_head] using h k hk
        rw [hvw, ih hcs hds fun a ha => ?_]
        by_cases hak : a = k
        · rw [hak, lookupCell_of_below hkcs, lookupCell_of_below hjds]
        · simpa only [lookupCell, if_neg hak] using h a ha
      · refine (not_lt_of_reads_alike hm (fun c hc => ?_) fun a ha => (h a ha).symm).elim
        rcases List.mem_cons.mp hc with rfl | hc
        · exact hlt
        · exact Nat.lt_trans hlt (hkcs c hc)

theorem toNat_ofNat_of_lt {a : Nat} (h : a < memorySize) : (BitVec.ofNat 16 a).toNat = a :=
  Nat.mod_eq_of_lt h

/-- Settles O17, for the lists of cells: the first keys agree, for the smaller one would read as
listed in one memory and as unlisted in the other. -/
theorem memoriesThatReadAlikeAreEqual : Obligations.MemoriesThatReadAlikeAreEqual := by
  intro m n hm hn h
  have hcells : m.cells = n.cells := canonicalCells_ext hm hn fun a ha => by
    have := h (BitVec.ofNat 16 a)
    rwa [Memory.read, Memory.read, toNat_ofNat_of_lt ha] at this
  cases m
  cases n
  exact congrArg Memory.mk hcells

/-! ### Creation -/

theorem readReg_create (p : Params) (c : Console) (r : Reg) : (State.create p c).readReg r = 0 := by
  cases r <;> rfl

/-- Settles O12: every field is as creation writes it. -/
theorem creationGivesTheResetValues : Obligations.CreationGivesTheResetValues := by
  intro p c
  refine ⟨readReg_create p c, rfl, ?_, Memory.read_zeroed, rfl, rfl, rfl⟩
  rw [State.create]
  cases p.condReset <;> rfl

/-- Settles O13: zeroed memory lists no cell. -/
theorem creationMeetsTheInvariant : Obligations.CreationMeetsTheInvariant :=
  ⟨fun _ _ => Memory.wf_zeroed, Memory.wf_zeroed⟩

/-! ### Storing the words of an image -/

theorem storeWords_cons_of_lt {a : Nat} (m : Memory) (w : Word) (ws : List Word)
    (h : a < memorySize) :
    storeWords m a (w :: ws) = storeWords (m.write (BitVec.ofNat 16 a) w) (a + 1) ws := if_pos h

theorem storeWords_of_ge {a : Nat} (m : Memory) (ws : List Word) (h : ¬ a < memorySize) :
    storeWords m a ws = m := by
  cases ws with
  | nil => rfl
  | cons w ws => exact if_neg h

theorem wf_storeWords {m : Memory} (ws : List Word) (a : Nat) (h : m.wf = true) :
    (storeWords m a ws).wf = true := by
  induction ws generalizing m a with
  | nil => exact h
  | cons w ws ih =>
    by_cases ha : a < memorySize
    · rw [storeWords_cons_of_lt m w ws ha]
      exact ih _ (m.wf_write _ w h)
    · rwa [storeWords_of_ge m _ ha]

/-- The cells before and behind the words stored stay. -/
theorem read_storeWords_outside (m : Memory) (ws : List Word) (a : Nat) (x : Word)
    (h : x.toNat < a ∨ a + ws.length ≤ x.toNat) : (storeWords m a ws).read x = m.read x := by
  induction ws generalizing m a with
  | nil => rfl
  | cons w ws ih =>
    by_cases ha : a < memorySize
    · rw [List.length_cons] at h
      have hne : x ≠ BitVec.ofNat 16 a := by
        rintro rfl
        rw [toNat_ofNat_of_lt ha] at h
        omega
      rw [storeWords_cons_of_lt m w ws ha, ih _ _ (by omega), m.read_write_ne w hne]
    · rw [storeWords_of_ge m _ ha]

/-- Word k of the list lands k cells behind the first, unless that is past 0xFFFF. -/
theorem read_storeWords_at {m : Memory} {ws : List Word} {a k : Nat} {w : Word} (hm : m.wf = true)
    (hw : ws[k]? = some w) (h : a + k < memorySize) :
    (storeWords m a ws).read (BitVec.ofNat 16 (a + k)) = w := by
  induction ws generalizing m a k with
  | nil => simp at hw
  | cons v vs ih =>
    rw [storeWords_cons_of_lt m v vs (by omega)]
    cases k with
    | zero =>
      rw [read_storeWords_outside _ _ _ _ (.inl ?_), Nat.add_zero, m.read_write_same _ _ hm]
      · simpa using hw
      · rw [Nat.add_zero, toNat_ofNat_of_lt (by omega)]
        exact Nat.lt_succ_self a
    | succ k =>
      rw [show a + (k + 1) = a + 1 + k by omega]
      exact ih (m.wf_write _ v hm) (by simpa using hw) (by omega)

/-- Two bytes read as a big-endian word (rule R44). -/
theorem append_eq_ofNat (hi lo : Byte) : hi ++ lo = BitVec.ofNat 16 (256 * hi.toNat + lo.toNat) := by
  apply BitVec.eq_of_toNat_eq
  have hbound : 256 * hi.toNat + lo.toNat < 2 ^ 16 := by omega
  rw [BitVec.toNat_append, ← Nat.shiftLeft_add_eq_or_of_lt lo.isLt, BitVec.toNat_ofNat,
    Nat.mod_eq_of_lt hbound, Nat.shiftLeft_eq]
  omega

/-- Settles O14, from what storing a list of words does to the cells in and outside its range. -/
theorem imageWordsLandFromTheOrigin : Obligations.ImageWordsLandFromTheOrigin := by
  refine ⟨⟨rfl, fun hi lo rest => ?_⟩, fun s file origin ws hs himage => ?_⟩
  · rw [imageWords, append_eq_ofNat]
  · refine ⟨s.setMem (storeWords s.mem origin.toNat ws), ?_, rfl, wf_storeWords ws _ hs,
      fun k w hw hk => ?_, fun a ha => read_storeWords_outside s.mem ws _ a ha⟩
    · rw [loadImage, himage]
    · have hplace : origin + BitVec.ofNat 16 k = BitVec.ofNat 16 (origin.toNat + k) := by
        rw [BitVec.ofNat_add, BitVec.ofNat_toNat, BitVec.setWidth_eq]
      rw [hplace]
      exact read_storeWords_at hs hw (Nat.lt_succ_of_le hk)

end Sys2Proof.Machine
end

section
/-! The keyboard registers, the console calls and the step (20_memory.md sections 3 to 6, 40_step.md,
70_reset_and_hazards.md): what the poll of a mapped read of KBSR leaves is said once, and with it what a
fetch, a load and a store from there do. -/

namespace Sys2Proof.Machine

/-! ### The mapped read of KBSR (rule R46) -/

theorem kbdr_ne_kbsr : kbdrAddr ≠ kbsrAddr := by decide

/-- What a poll that finds input leaves: READY in KBSR and the byte in KBDR. -/
theorem memRead_kbsr_of_ready {s : State} (hs : s.Inv) (h : s.console.pollHasInput.1 = true) :
    ∃ b c, s.console.pollHasInput.2.takeByte = some (b, c) ∧
      memRead kbsrAddr s = (kbsrReady, (s.setConsole c).setMem
        ((s.mem.write kbsrAddr kbsrReady).write kbdrAddr (zextByte b))) := by
  rcases pollKeyboard_cases s with ⟨b, c, -, hbyte, e⟩ | ⟨hfalse, -⟩
  · refine ⟨b, c, hbyte, ?_⟩
    rw [memRead_kbsr, e, State.setMem_mem, Memory.read_write_ne _ _ kbdr_ne_kbsr.symm,
      Memory.read_write_same _ _ _ hs]
  · simp [h] at hfalse

/-- What a poll that finds none leaves: KBSR zero. -/
theorem memRead_kbsr_of_not_ready {s : State} (hs : s.Inv) (h : s.console.pollHasInput.1 = false) :
    memRead kbsrAddr s =
      (0, (s.setConsole s.console.pollHasInput.2).setMem (s.mem.write kbsrAddr 0)) := by
  rcases pollKeyboard_cases s with ⟨b, c, htrue, -⟩ | ⟨-, e⟩
  · simp [h] at htrue
  · rw [memRead_kbsr, e, State.setMem_mem, Memory.read_write_same _ _ _ hs]

theorem toNat_zextByte (b : Byte) : (zextByte b).toNat = b.toNat :=
  BitVec.toNat_setWidth_of_le (by decide)

theorem output_of_events {c d : Console} {es : List ConsoleEvent} (h : d.events = c.events ++ es)
    (hes : es.filterMap ConsoleEvent.written? = []) : d.output = c.output := by
  rw [Console.output, h, List.filterMap_append, hes, List.append_nil, Console.output]

/-- Settles O18, at the two ends of the poll. -/
theorem mappedReadOfKbsrPolls : Obligations.MappedReadOfKbsrPolls := by
  intro s hs
  obtain ⟨hinput, htail, hevents⟩ := s.console.pollHasInput_spec
  have frame := devicesOnly_memRead kbsrAddr s
  cases hpoll : s.console.pollHasInput.1
  · have hread := memRead_kbsr_of_not_ready hs hpoll
    rw [hpoll] at hevents
    rw [hread] at frame
    refine ⟨_, _, hread, s.mem.read_write_same _ _ hs, frame.regs, frame.cond,
      ⟨frame.pc, frame.runState, frame.params⟩, frame.cells, output_of_events hevents rfl, htail,
      .inr ⟨rfl, s.mem.read_write_ne _ kbdr_ne_kbsr, hevents, hinput⟩⟩
  · obtain ⟨b, c, hbyte, hread⟩ := memRead_kbsr_of_ready hs hpoll
    obtain ⟨hevents', htail', -, htaken⟩ := Console.takeByte_spec hbyte
    rw [hevents, hpoll, List.append_assoc] at hevents'
    rw [hinput, htail] at htaken
    rw [hread] at frame
    have hkbsr : ((s.mem.write kbsrAddr kbsrReady).write kbdrAddr (zextByte b)).read kbsrAddr =
        kbsrReady := by
      rw [Memory.read_write_ne _ _ kbdr_ne_kbsr.symm, s.mem.read_write_same _ _ hs]
    have hkbdr : ((s.mem.write kbsrAddr kbsrReady).write kbdrAddr (zextByte b)).read kbdrAddr =
        zextByte b := Memory.read_write_same _ _ _ (s.mem.wf_write _ _ hs)
    refine ⟨_, _, hread, hkbsr, frame.regs, frame.cond,
      ⟨frame.pc, frame.runState, frame.params⟩, frame.cells, output_of_events hevents' rfl,
      htail'.trans htail, .inl ⟨rfl, b, ?_, hevents', ?_⟩⟩
    · exact (congrArg BitVec.toNat hkbdr).trans (toNat_zextByte b)
    · rcases htaken with h | ⟨h1, h2, h3, -⟩
      · exact .inl h
      · exact .inr ⟨h1, h2, h3⟩

/-! ### The answer of a poll (rule R54) -/

theorem memRead_kbsr_value {s : State} (hs : s.Inv) :
    (memRead kbsrAddr s).1 = if s.console.pollHasInput.1 then kbsrReady else 0 := by
  cases hpoll : s.console.pollHasInput.1
  · rw [memRead_kbsr_of_not_ready hs hpoll]
    rfl
  · obtain ⟨b, c, -, hread⟩ := memRead_kbsr_of_ready hs hpoll
    rw [hread]
    rfl

theorem pollHasInput_of_listed {c : Console} {d : Bool} {ds : List Bool} {b : Byte} {bs : List Byte}
    (hp : c.polls = d :: ds) (hi : c.input = b :: bs) : c.pollHasInput.1 = d := by
  simp [Console.pollHasInput, Console.pollDraw, Console.hasInput, hp, hi]

theorem pollHasInput_of_no_input {c : Console} (hi : c.input = []) (ht : c.tail ≠ .unknown) :
    c.pollHasInput.1 = false := by
  have : c.hasInput = false := by
    rw [Console.hasInput, hi]
    cases h : c.tail with
    | unknown => exact absurd h ht
    | endOfInput | neverSupplied => rfl
  rw [Console.pollHasInput, this, Bool.and_false]

/-- Settles O19: the draw decides where input is listed, and no draw does where none is to come. -/
theorem pollAnswersTheDrawIfInputIsPending : Obligations.PollAnswersTheDrawIfInputIsPending := by
  intro s hs
  refine ⟨fun d ds b bs hp hi => ?_, fun hi ht => ?_⟩
  · exact (memRead_kbsr_value hs).trans (by rw [pollHasInput_of_listed hp hi]; rfl)
  · have hread := memRead_kbsr_of_not_ready hs (pollHasInput_of_no_input hi ht)
    obtain ⟨hinput, htail, -⟩ := s.console.pollHasInput_spec
    change (memRead kbsrAddr s).1 = 0 ∧ (memRead kbsrAddr (memRead kbsrAddr s).2).1 = 0 ∧
      (memRead kbsrAddr s).2.mem.read kbdrAddr = s.mem.read kbdrAddr
    rw [hread]
    refine ⟨rfl, ?_, s.mem.read_write_ne _ kbdr_ne_kbsr⟩
    rw [memRead_kbsr_of_not_ready (s.mem.wf_write _ _ hs)]
    exact pollHasInput_of_no_input (hinput.trans hi) fun h => ht (htail.symm.trans h)

/-! ### The console calls -/

@[simp] theorem State.output_writeByte (s : State) (b : Byte) :
    (s.writeByte b).console.output = s.console.output ++ [b] := s.console.output_log (.write b)

@[simp] theorem State.output_flush (s : State) : s.flush.console.output = s.console.output := by
  simp [State.flush]

/-- Settles O21: each call by its definition, the reads by the tail of the stream. -/
theorem consoleCallsFollowTheStreams : Obligations.ConsoleCallsFollowTheStreams := by
  refine ⟨State.output_writeByte, State.output_flush, fun c b bs hi => ?_, fun c hi => ?_⟩
  · rw [Console.readCharBlocking, Console.takeByte, hi]
    exact ⟨rfl, rfl⟩
  · rw [Console.readCharBlocking, Console.takeByte, hi]
    refine ⟨fun ht => ?_, fun ht => ?_, fun ht => ?_⟩ <;> rw [ht]
    exact ⟨_, rfl⟩

/-! ### The step (rules R90 to R92) -/

theorem step_of_plain_fetch {s : State} (hrun : s.runState = .running) (h : s.pc ≠ kbsrAddr) :
    step s = exec (decode (s.mem.read s.pc)) (s.setPc (s.pc + 1)) := by
  rw [step_of_running hrun, fetch_of_ne h]

/-- Settles O22, by the law of a step and that of a fetch. -/
theorem stepRunsTheFetchedInstruction : Obligations.StepRunsTheFetchedInstruction := by
  intro s hrun
  refine ⟨?_, step_of_plain_fetch hrun⟩
  rw [step_of_running hrun, fetch_fst, fetch_snd]

/-- Settles O24: `step` answers a fault in either stopped run state. -/
theorem noStepAfterTheEnd : Obligations.NoStepAfterTheEnd := by
  refine fun s => ⟨fun h => ?_, fun r h => ?_⟩ <;> rw [step, h]

/-- Settles O20: ST with offset 0 writes the cell at PC, and the next fetch reads it back. -/
theorem storeIsSeenByTheNextFetch : Obligations.StoreIsSeenByTheNextFetch := by
  intro s sr hs hrun hpc
  have hea : pcRelative (0 : BitVec 9) s = s.pc := BitVec.add_zero s.pc
  refine ⟨memWrite s.pc (s.readReg sr) s, ?_, ?_⟩
  · rw [exec_st, hea]
  · have hstep := step_of_plain_fetch (s := memWrite s.pc (s.readReg sr) s) hrun hpc
    rwa [memWrite_pc, memWrite_mem, s.mem.read_write_same _ _ hs] at hstep

theorem exec_nop (s : State) : exec .nop s = .next s := exec_br_of_not_taken 0 (by simp [branchTaken])

theorem decode_zero : decode 0 = .nop := by decide

theorem decode_kbsrReady : decode kbsrReady = .rti := by decide

/-- Settles O23: the word the poll returns is NOP's or RTI's, and the arm runs on what the poll leaves. -/
theorem fetchFromKbsrPolls : Obligations.FetchFromKbsrPolls := by
  intro s hs hrun hpc
  obtain ⟨v, u, hread, hkbsr, hregs, hcond, ⟨hupc, hurun, -⟩, hcells, -, -, hend⟩ :=
    mappedReadOfKbsrPolls s hs
  have hstep : step s = exec (decode v) (u.setPc 0xFE01) := by
    rw [step_of_running hrun, fetch_fst, fetch_snd, hpc, hread]
    rfl
  rcases hend with ⟨hv, b, hb, hev, -⟩ | ⟨hv, hkbdr, hev, -⟩
  · refine ⟨(u.setPc 0xFE01).setRunState (.faulted (.reservedOpcode .rti)), ?_, rfl, hregs, hcond,
      hcells, .inr ⟨rfl, hkbsr.trans hv, b, hb, hev⟩⟩
    rw [hstep, hv, show decode 0x8000 = .rti from decode_kbsrReady, exec_rti, raiseFault_eq]
  · refine ⟨u.setPc 0xFE01, ?_, rfl, hregs, hcond, hcells,
      .inl ⟨hurun.trans hrun, hkbsr.trans hv, hkbdr, hev⟩⟩
    rw [hstep, hv, decode_zero, exec_nop]

/-! ### The run loop (rule R96) -/

/-- Go on from a next state, and keep any other outcome. -/
def andThen (r : StepResult) (f : State → StepResult) : StepResult :=
  match r with
  | .next t => f t
  | .fault e => .fault e
  | .refused e => .refused e

theorem runLoop_succ_of_running {s : State} (n : Nat) (h : s.runState = .running) :
    runLoop (n + 1) s = andThen (step s) (runLoop n) := by
  rw [runLoop, h]
  cases step s <;> rfl

theorem runLoop_of_stopped {s : State} (n : Nat) (h : s.runState ≠ .running) :
    runLoop n s = .next s := by
  cases n with
  | zero => rfl
  | succ n =>
    rw [runLoop]
    cases hr : s.runState with
    | running => exact absurd hr h
    | halted | faulted r => rfl

theorem runLoop_add (m n : Nat) (s : State) :
    runLoop (m + n) s = andThen (runLoop m s) (runLoop n) := by
  induction m generalizing s with
  | zero => rw [Nat.zero_add, runLoop, andThen]
  | succ m ih =>
    by_cases h : s.runState = .running
    · rw [Nat.add_right_comm, runLoop_succ_of_running _ h, runLoop_succ_of_running _ h]
      cases step s with
      | next t => exact ih t
      | fault f => rfl
      | refused r => rfl
    · rw [runLoop_of_stopped _ h, runLoop_of_stopped _ h]
      exact (runLoop_of_stopped n h).symm

/-- Settles O15, from the loop's two equations and its composition. -/
theorem runLoopStopsAtTheEnd : Obligations.RunLoopStopsAtTheEnd := by
  refine ⟨fun n s h => ?_, fun s h => ?_, fun m n s => ?_, fun n s h => runLoop_of_stopped n h⟩
  · rw [runLoop_succ_of_running n h]
    cases step s <;> rfl
  · rw [runLoop_succ_of_running 0 h]
    cases step s <;> rfl
  · rw [runLoop_add]
    cases runLoop m s <;> rfl

/-! ### Zeroed memory (rule R193) -/

theorem zeroed_write_zero (a : Word) : Memory.zeroed.write a 0 = Memory.zeroed := rfl

/-- Zeroed memory and no input to come: every fetch reads 0, and every step leaves such a state. -/
structure Unloaded (s : State) : Prop where
  running : s.runState = .running
  mem : s.mem = Memory.zeroed
  input : s.console.input = []
  tail : s.console.tail ≠ .unknown

/-- t is s but for PC and the console's draws and record, whose output has not grown. -/
structure SameButPcAndPolls (s t : State) : Prop where
  regs : t.regs = s.regs
  cond : t.cond = s.cond
  mem : t.mem = s.mem
  runState : t.runState = s.runState
  params : t.params = s.params
  input : t.console.input = s.console.input
  tail : t.console.tail = s.console.tail
  output : t.console.output = s.console.output

theorem memRead_of_unloaded {s : State} (h : Unloaded s) (a : Word) :
    (memRead a s).1 = 0 ∧ SameButPcAndPolls s (memRead a s).2 := by
  by_cases ha : a = kbsrAddr
  · obtain ⟨hinput, htail, hevents⟩ := s.console.pollHasInput_spec
    have hwf : s.Inv := by rw [State.Inv, h.mem]; exact Memory.wf_zeroed
    have hread := memRead_kbsr_of_not_ready hwf (pollHasInput_of_no_input h.input h.tail)
    have hmem : s.mem.write kbsrAddr 0 = s.mem := by rw [h.mem, zeroed_write_zero]
    rw [ha, hread]
    exact ⟨rfl, rfl, rfl, hmem, rfl, rfl, hinput, htail, output_of_events hevents rfl⟩
  · rw [memRead_of_ne s ha, h.mem]
    exact ⟨rfl, rfl, rfl, rfl, rfl, rfl, rfl, rfl, rfl⟩

/-- A step of an unloaded machine is a NOP. -/
theorem step_of_unloaded {s : State} (h : Unloaded s) :
    ∃ t, step s = .next t ∧ t.pc = s.pc + 1 ∧ SameButPcAndPolls s t := by
  obtain ⟨hword, hsame⟩ := memRead_of_unloaded h s.pc
  refine ⟨(memRead s.pc s).2.setPc (s.pc + 1), ?_, rfl, hsame.regs, hsame.cond, hsame.mem,
    hsame.runState, hsame.params, hsame.input, hsame.tail, hsame.output⟩
  rw [step_of_running h.running, fetch_fst, fetch_snd, hword, decode_zero, exec_nop]

theorem Unloaded.of_same {s t : State} (h : Unloaded s) (k : SameButPcAndPolls s t) : Unloaded t :=
  ⟨k.runState.trans h.running, k.mem.trans h.mem, k.input.trans h.input, k.tail ▸ h.tail⟩

/-- An unloaded machine runs on for ever, PC wrapping round. -/
theorem runLoop_of_unloaded (n : Nat) {s : State} (h : Unloaded s) :
    ∃ t, runLoop n s = .next t ∧ Unloaded t ∧ t.pc = s.pc + BitVec.ofNat 16 n ∧
      t.regs = s.regs := by
  induction n generalizing s with
  | zero => exact ⟨s, rfl, h, (BitVec.add_zero _).symm, rfl⟩
  | succ n ih =>
    obtain ⟨u, hstep, hpc, hsame⟩ := step_of_unloaded h
    obtain ⟨t, hrun, ht, htpc, hregs⟩ := ih (h.of_same hsame)
    refine ⟨t, ?_, ht, ?_, hregs.trans hsame.regs⟩
    · rw [runLoop_succ_of_running n h.running, hstep, andThen, hrun]
    · rw [htpc, hpc, Nat.add_comm, BitVec.ofNat_add, BitVec.add_assoc]
      rfl

/-- Settles O16: a created machine is unloaded, and an unloaded one stays so. -/
theorem unloadedMachineSlidesThroughNops : Obligations.UnloadedMachineSlidesThroughNops := by
  refine ⟨fun s hrun hmem hin htail => ?_, fun p c hin htail n => ?_⟩
  · obtain ⟨t, hstep, hpc, hsame⟩ := step_of_unloaded ⟨hrun, hmem, hin, htail⟩
    exact ⟨t, hstep, hsame.runState.trans hrun, hpc, hsame.regs, hsame.cond, hsame.mem.trans hmem,
      hsame.params, hsame.input.trans hin, hsame.tail, hsame.output⟩
  · obtain ⟨t, hrun, ht, hpc, hregs⟩ :=
      runLoop_of_unloaded n (s := State.create p c) ⟨rfl, rfl, hin, htail⟩
    exact ⟨t, hrun, ht.running, hpc, hregs, ht.mem⟩

/-! ### Loads and stores through a pointer, and the return from a call -/

/-- The pointer read of LDI and STI is the mapped read at PC + offset9, plain away from KBSR. -/
theorem indirect_spec (off9 : BitVec 9) (s : State) :
    memRead (BitVec.ofInt 16 (s.pc.toNat + off9.toInt)) s = indirect off9 s ∧
      (BitVec.ofInt 16 (s.pc.toNat + off9.toInt) ≠ kbsrAddr →
        (indirect off9 s).1 = s.mem.read (BitVec.ofInt 16 (s.pc.toNat + off9.toInt)) ∧
          (indirect off9 s).2 = s) := by
  rw [← pcRelative_eq_ofInt, indirect]
  refine ⟨rfl, fun h => ?_⟩
  rw [memRead_of_ne s h]
  exact ⟨rfl, rfl⟩

/-- What a poll returns is no address of a keyboard register. -/
theorem memRead_kbsr_ne_kbsr {s : State} (hs : s.Inv) : (memRead kbsrAddr s).1 ≠ kbsrAddr := by
  rw [memRead_kbsr_value hs]
  split <;> decide

theorem LoadedFrom.frame {dr : Reg} {ea : Word} {s t : State} (h : LoadedFrom dr ea s t) :
    SameRegsBut [dr] s t ∧ SameControl s t := by
  obtain ⟨-, -, hregs, hcontrol, -⟩ := h
  exact ⟨hregs, hcontrol⟩

/-- Settles O35: LDI is the load from the pointer, on the state the pointer's read leaves. -/
theorem ldiLoadsThroughAPointer : Obligations.LdiLoadsThroughAPointer := by
  intro dr off9 s
  obtain ⟨hread, hplain⟩ := indirect_spec off9 s
  have pointer : DevicesOnly s (indirect off9 s).2 := devicesOnly_memRead _ s
  have load := loadedFrom_writeResult dr (indirect off9 s).1 (indirect off9 s).2
  obtain ⟨hregs, hpc, hrun, hparams⟩ := load.frame
  refine ⟨_, (indirect off9 s).1, (indirect off9 s).2, exec_ldi dr off9 s, hread, load,
    fun r hr => (hregs r hr).trans (pointer.readReg r),
    ⟨hpc.trans pointer.pc, hrun.trans pointer.runState, hparams.trans pointer.params⟩, hplain,
    fun hs hea => ?_⟩
  rw [← hread, hea]
  exact memRead_kbsr_ne_kbsr hs

/-- Settles O39: STI is the store at the pointer, on the state the pointer's read leaves. -/
theorem stiStoresThroughAPointer : Obligations.StiStoresThroughAPointer := by
  intro sr off9 s
  obtain ⟨hread, hplain⟩ := indirect_spec off9 s
  have pointer : DevicesOnly s (indirect off9 s).2 := devicesOnly_memRead _ s
  refine ⟨_, (indirect off9 s).1, (indirect off9 s).2, exec_sti sr off9 s, hread, ?_,
    pointer.regs, pointer.cond, ⟨pointer.pc, pointer.runState, pointer.params⟩, hplain⟩
  rw [pointer.readReg]
  exact storedAt_memWrite _ _ _

/-- Settles O33: either call leaves PC in R7, and JMP R7 goes where R7 says. -/
theorem returnUndoesTheCall : Obligations.ReturnUndoesTheCall := by
  intro s call hcall
  obtain ⟨t, hexec, hr7⟩ : ∃ t, exec call s = .next t ∧ t.readReg .r7 = s.pc := by
    rcases hcall with ⟨off, rfl⟩ | ⟨base, rfl⟩
    · exact ⟨_, exec_jsr off s, (saveReturn_setPc_effect rfl).1⟩
    · exact ⟨_, exec_jsrr base s, (saveReturn_setPc_effect rfl).1⟩
  refine ⟨t, hexec, fun u hu => ?_⟩
  rw [exec_jmp, hu, hr7]

end Sys2Proof.Machine
end

section
/-! The TRAP vectors (44_trap.md). Each runs after the trap entry, so what it keeps of registers, PC, COND
and parameters is said once for every state the devices can lead to from there; what is left of a vector is
its console calls, and for PUTS and PUTSP the scan of the string. -/

namespace Sys2Proof.Machine

/-! ### What a TRAP keeps (rules R141, R150) -/

/-- R7 by TRAP_LINKS_R7, and all else but memory, console and run state as before. -/
structure TrapKeeps (s t : State) : Prop where
  linked : TrapLinked s t
  regs : SameRegsBut [.r7] s t
  pc : t.pc = s.pc
  cond : t.cond = s.cond
  params : t.params = s.params

theorem trapEntry_readReg_r7 (s : State) :
    (trapEntry s).readReg .r7 = if s.params.trapLinksR7 then s.pc else s.readReg .r7 := by
  rcases trapEntry_cases s with ⟨h, e⟩ | ⟨h, e⟩ <;> rw [e, h]
  · exact s.readReg_writeReg_same .r7 s.pc
  · rfl

theorem trapKeeps_of_devices {s t : State} (h : DevicesOnly (trapEntry s) t) : TrapKeeps s t where
  linked := (h.readReg .r7).trans (trapEntry_readReg_r7 s)
  regs r hr := (h.readReg r).trans (trapEntry_readReg_ne s fun e => hr (List.mem_singleton.mpr e))
  pc := h.pc.trans (trapEntry_pc s)
  cond := h.cond.trans (trapEntry_cond s)
  params := h.params.trans (trapEntry_params s)

theorem TrapKeeps.setRunState {s t : State} (h : TrapKeeps s t) (r : RunState) :
    TrapKeeps s (t.setRunState r) := ⟨h.linked, h.regs, h.pc, h.cond, h.params⟩

theorem TrapKeeps.setConsole {s t : State} (h : TrapKeeps s t) (c : Console) :
    TrapKeeps s (t.setConsole c) := ⟨h.linked, h.regs, h.pc, h.cond, h.params⟩

theorem TrapKeeps.truncateOutput {s t : State} (h : TrapKeeps s t) (n : Nat) :
    TrapKeeps s (truncateOutput n t) := ⟨h.linked, h.regs, h.pc, h.cond, h.params⟩

/-! ### Consoles that differ by further calls -/

theorem OnlyCallsAdded.refl (s : State) : OnlyCallsAdded s s := ⟨rfl, List.prefix_rfl⟩

theorem OnlyCallsAdded.trans {s t u : State} (h : OnlyCallsAdded s t) (k : OnlyCallsAdded t u) :
    OnlyCallsAdded s u := by
  obtain ⟨ht, hts⟩ := h
  obtain ⟨hu, hut⟩ := k
  exact ⟨by rw [hu, ht], hts.trans hut⟩

theorem OnlyCallsAdded.log {s t : State} (h : OnlyCallsAdded s t) (e : ConsoleEvent) :
    OnlyCallsAdded s (t.setConsole (t.console.log e)) := by
  obtain ⟨hc, hevents⟩ := h
  refine ⟨?_, hevents.trans (List.prefix_append _ _)⟩
  rw [State.setConsole_console, Console.log_events, Console.log, hc]

theorem OnlyCallsAdded.writeBytes {s t : State} (h : OnlyCallsAdded s t) (bs : List Byte) :
    OnlyCallsAdded s (t.writeBytes bs) := by
  induction bs generalizing t with
  | nil => exact h
  | cons b bs ih => exact ih (h.log (.write b))

theorem onlyCallsAdded_trapEntry (s : State) : OnlyCallsAdded s (trapEntry s) := by
  rw [OnlyCallsAdded, trapEntry_console]
  exact OnlyCallsAdded.refl s

@[simp] theorem State.output_writeBytes (s : State) (bs : List Byte) :
    (s.writeBytes bs).console.output = s.console.output ++ bs := by
  induction bs generalizing s with
  | nil => simp
  | cons b bs ih => simp [ih]

theorem State.writeBytes_input (s : State) (bs : List Byte) :
    (s.writeBytes bs).console.input = s.console.input := by
  rw [State.writeBytes_eq, State.setConsole_console]

theorem State.writeBytes_append (s : State) (bs cs : List Byte) :
    s.writeBytes (bs ++ cs) = (s.writeBytes bs).writeBytes cs := by
  induction bs generalizing s with
  | nil => rfl
  | cons b bs ih => exact ih (s.writeByte b)

/-! ### OUT, HALT and the unknown vectors -/

theorem lowByte_eq_ofNat (w : Word) : lowByte w = BitVec.ofNat 8 w.toNat := by
  apply BitVec.eq_of_toNat_eq
  rw [lowByte, BitVec.extractLsb'_toNat, Nat.shiftRight_zero, BitVec.toNat_ofNat]

/-- Settles O42: OUT writes one byte and flushes after the trap entry. -/
theorem outWritesTheLowByte : Obligations.OutWritesTheLowByte := by
  intro s
  have keeps := trapKeeps_of_devices (s := s)
    ((devicesOnly_writeByte _ (lowByte (s.readReg .r0))).trans (devicesOnly_flush _))
  refine ⟨_, exec_trapOut s, ?_, ((onlyCallsAdded_trapEntry s).log (.write _)).log .flush,
    keeps.linked, keeps.regs, ⟨keeps.pc, trapEntry_runState s, keeps.params⟩, keeps.cond,
    trapEntry_mem s⟩
  rw [State.output_flush, State.output_writeByte, trapEntry_console, lowByte_eq_ofNat]

/-- The state after a trap's text: IN's prompt or HALT's notice, flushed. -/
def afterText (text : List Byte) (s : State) : State := ((trapEntry s).writeBytes text).flush

theorem devicesOnly_afterText (text : List Byte) (s : State) :
    DevicesOnly (trapEntry s) (afterText text s) :=
  (devicesOnly_writeBytes _ text).trans (devicesOnly_flush _)

theorem onlyCallsAdded_afterText (text : List Byte) (s : State) :
    OnlyCallsAdded s (afterText text s) := ((onlyCallsAdded_trapEntry s).writeBytes text).log .flush

theorem afterText_mem (text : List Byte) (s : State) : (afterText text s).mem = s.mem := by
  simp [afterText]

theorem afterText_output (text : List Byte) (s : State) :
    (afterText text s).console.output = s.console.output ++ text := by simp [afterText]

/-- Settles O50: HALT writes its notice and stops. -/
theorem haltEndsTheRun : Obligations.HaltEndsTheRun := by
  intro s
  have keeps := (trapKeeps_of_devices (devicesOnly_afterText s.params.haltNotice s)).setRunState .halted
  exact ⟨(afterText s.params.haltNotice s).setRunState .halted, exec_trapHalt s, rfl,
    afterText_output _ s, onlyCallsAdded_afterText _ s, keeps.linked, keeps.regs, keeps.pc, keeps.cond,
    afterText_mem _ s, keeps.params⟩

/-- Settles O51: an unknown vector faults right after the trap entry. -/
theorem unknownVectorFaults : Obligations.UnknownVectorFaults := by
  intro v s
  have keeps := (trapKeeps_of_devices (DevicesOnly.refl (trapEntry s))).setRunState
    (.faulted (.unknownTrapVector v))
  exact ⟨_, exec_trapBadvec v s, rfl, trapEntry_console s, keeps.linked, keeps.regs, keeps.pc,
    keeps.cond, trapEntry_mem s⟩

/-! ### GETC and IN -/

theorem readThen_of_byte {s : State} {b : Byte} {c : Console} (k : Byte → State → StepResult)
    (h : s.console.takeByte = some (b, c)) : readThen s k = k b (s.setConsole c) := by
  rw [readThen, Console.readCharBlocking, h]

theorem readThen_of_endOfInput {s : State} (k : Byte → State → StepResult)
    (hi : s.console.input = []) (ht : s.console.tail = .endOfInput) :
    readThen s k = raiseFault .endOfInput (s.setConsole (s.console.log .readEof)) := by
  rw [readThen, Console.readCharBlocking, Console.takeByte, hi, ht]

theorem takeByte_of_hasInput {c : Console} (h : c.hasInput = true) :
    ∃ b d, c.takeByte = some (b, d) := by
  rw [← c.takeByte_isSome, Option.isSome_iff_exists] at h
  obtain ⟨⟨b, d⟩, h⟩ := h
  exact ⟨b, d, h⟩

theorem output_of_takeByte {c d : Console} {b : Byte} (h : c.takeByte = some (b, d)) :
    d.output = c.output := output_of_events (Console.takeByte_spec h).1 rfl

/-- The character in R0 and its flag, over a state that kept the rest (decision D11). -/
theorem writeResult_r0_effect {s u : State} (h : TrapKeeps s u) (b : Byte) :
    ((writeResult .r0 (zextByte b) u).readReg .r0).toNat = b.toNat ∧
      FlagMatches (writeResult .r0 (zextByte b) u).cond
        ((writeResult .r0 (zextByte b) u).readReg .r0) ∧
      TrapLinked s (writeResult .r0 (zextByte b) u) ∧
      SameRegsBut [.r0, .r7] s (writeResult .r0 (zextByte b) u) := by
  rw [writeResult_readReg_same, writeResult_cond]
  refine ⟨toNat_zextByte b, flagMatches_condOf _, ?_, fun r hr => ?_⟩
  · exact (writeResult_readReg_ne _ u (by decide)).trans h.linked
  · simp only [List.mem_cons, List.not_mem_nil, or_false, not_or] at hr
    exact (writeResult_readReg_ne _ u hr.1).trans (h.regs r (by simpa using hr.2))

/-- Settles O41: GETC takes the next byte after the trap entry and writes it to R0. -/
theorem getcReadsOneCharacter : Obligations.GetcReadsOneCharacter := by
  intro s hin
  obtain ⟨b, c, hbyte⟩ := takeByte_of_hasInput hin
  have keeps := (trapKeeps_of_devices (DevicesOnly.refl (trapEntry s))).setConsole c
  obtain ⟨hr0, hflag, hlink, hregs⟩ := writeResult_r0_effect keeps b
  refine ⟨b, c, _, hbyte, ?_, hr0, hflag, hlink, hregs,
    ⟨keeps.pc, trapEntry_runState s, keeps.params⟩, trapEntry_mem s, rfl, output_of_takeByte hbyte⟩
  rw [exec_trapGetc, readThen_of_byte _ (by rwa [trapEntry_console])]

/-- With further calls in the record the same byte is taken, and the console left differs in its record
only. -/
theorem takeByte_of_onlyCallsAdded {s t : State} {b : Byte} {c : Console} (h : OnlyCallsAdded s t)
    (hbyte : s.console.takeByte = some (b, c)) :
    ∃ d, t.console.takeByte = some (b, d) ∧ d = { c with events := d.events } := by
  have alike : ConsolesAlike s.console.events t.console.events s.console t.console :=
    ⟨[], by simp, by rw [List.append_nil]; exact h.1⟩
  rcases alike.takeByte with ⟨hnone, -⟩ | ⟨b', c', d, hc, hd, new, -, e⟩
  · cases hbyte.symm.trans hnone
  · cases hbyte.symm.trans hc
    exact ⟨d, hd, by rw [e]⟩

/-- IN after its prompt: the byte is echoed and written to R0. -/
theorem exec_trapIn_of_byte {s : State} {b : Byte} {d : Console}
    (h : (afterText s.params.inPrompt s).console.takeByte = some (b, d)) :
    exec .trapIn s = .next (writeResult .r0 (zextByte b)
      ((afterText s.params.inPrompt s).setConsole ((d.log (.write b)).log .flush))) := by
  rw [afterText] at h ⊢
  rw [exec_trapIn, readThen_of_byte _ h]
  rfl

/-- Settles O48: IN is GETC after the prompt, with an echo. -/
theorem inPromptsReadsAndEchoes : Obligations.InPromptsReadsAndEchoes := by
  intro s hin
  obtain ⟨b, c, hbyte⟩ := takeByte_of_hasInput hin
  obtain ⟨d, hd, hrest⟩ :=
    takeByte_of_onlyCallsAdded (onlyCallsAdded_afterText s.params.inPrompt s) hbyte
  have text := devicesOnly_afterText s.params.inPrompt s
  have keeps := (trapKeeps_of_devices text).setConsole ((d.log (.write b)).log .flush)
  obtain ⟨hr0, hflag, hlink, hregs⟩ := writeResult_r0_effect keeps b
  refine ⟨b, c, _, hbyte, exec_trapIn_of_byte hd, hr0, hflag, hlink, hregs,
    ⟨keeps.pc, text.runState.trans (trapEntry_runState s), keeps.params⟩, afterText_mem _ s, ?_, ?_⟩
    <;> rw [writeResult_console, State.setConsole_console]
  · rw [Console.output_log, Console.output_log, output_of_takeByte hd, afterText_output]
    exact List.append_nil _
  · rw [Console.log, Console.log, hrest]

/-- A blocking read at end of input, begun where the console differs from that of s in its record. -/
theorem readThen_fault_effect {s u : State} {text : List Byte} {r : StepResult}
    {k : Byte → State → StepResult} (hr : r = readThen u k) (hi : s.console.input = [])
    (ht : s.console.tail = .endOfInput)
    (hu : DevicesOnly (trapEntry s) u) (hadd : OnlyCallsAdded s u) (hmem : u.mem = s.mem)
    (hout : u.console.output = s.console.output ++ text) :
    ∃ t, r = .next t ∧ t.runState = .faulted .endOfInput ∧
      t.console.output = s.console.output ++ text ∧ OnlyCallsAdded s t ∧ TrapLinked s t ∧
      SameRegsBut [.r7] s t ∧ t.pc = s.pc ∧ t.cond = s.cond ∧ t.mem = s.mem ∧
      t.params = s.params := by
  have hui : u.console.input = [] := by rw [hadd.1]; exact hi
  have hut : u.console.tail = .endOfInput := by rw [hadd.1]; exact ht
  have keeps := (trapKeeps_of_devices hu).setConsole (u.console.log .readEof)
  refine ⟨_, hr.trans (readThen_of_endOfInput k hui hut), rfl, ?_, hadd.log .readEof, keeps.linked,
    keeps.regs, keeps.pc, keeps.cond, hmem, keeps.params⟩
  rw [← hout]
  exact (u.console.output_log .readEof).trans (List.append_nil _)

/-- Settles O49: at end of input the read is a fault, after IN's prompt. -/
theorem endOfInputFaults : Obligations.EndOfInputFaults := by
  intro s hi ht i text hcase
  rcases hcase with ⟨rfl, rfl⟩ | ⟨rfl, rfl⟩
  · exact readThen_fault_effect (exec_trapGetc s) hi ht (.refl _) (onlyCallsAdded_trapEntry s)
      (trapEntry_mem s) (by rw [trapEntry_console, List.append_nil])
  · exact readThen_fault_effect (exec_trapIn s) hi ht (devicesOnly_afterText _ s)
      (onlyCallsAdded_afterText _ s) (afterText_mem _ s) (afterText_output _ s)

/-! ### The scan of a string (rules R144, R146) -/

theorem cellsFrom_succ (m : Memory) (a : Word) (n : Nat) :
    cellsFrom m a (n + 1) = m.read a :: cellsFrom m (a + 1) n := by
  rw [cellsFrom, List.range_succ_eq_map, List.map_cons, List.map_map, cellsFrom]
  congr 1
  · exact congrArg m.read (BitVec.add_zero a)
  · refine List.map_congr_left fun k _ => congrArg m.read ?_
    rw [BitVec.add_assoc, Nat.succ_eq_one_add, BitVec.ofNat_add]
    rfl

theorem mem_cellsFrom {m : Memory} {a w : Word} {n : Nat} (h : w ∈ cellsFrom m a n) :
    ∃ x, w = m.read x := by
  obtain ⟨k, -, rfl⟩ := List.mem_map.mp h
  exact ⟨_, rfl⟩

theorem stringRead_plain {s : State} {a : Word}
    (h : s.params.trapReadsMapped = false ∨ a ≠ kbsrAddr) : stringRead a s = (s.mem.read a, s) := by
  cases hm : s.params.trapReadsMapped
  · exact stringRead_raw a hm
  · rw [stringRead, if_pos hm]
    exact memRead_of_ne s (h.resolve_left (by simp [hm]))

theorem scanString_of_zero {chars : Word → List Byte} {a : Word} {s : State} (n : Nat)
    (h : (stringRead a s).1 = 0) : scanString chars (n + 1) a s = (true, (stringRead a s).2) := by
  rw [scanString]
  exact if_pos h

theorem scanString_of_ne_zero {chars : Word → List Byte} {a : Word} {s : State} (n : Nat)
    (h : (stringRead a s).1 ≠ 0) : scanString chars (n + 1) a s =
      scanString chars n (a + 1) ((stringRead a s).2.writeBytes (chars (stringRead a s).1)) := by
  rw [scanString]
  exact if_neg h

/-- The scan over n cells that are not zero writes their bytes and goes on behind them. -/
theorem scanString_plain (chars : Word → List Byte) (k : Nat) {n : Nat} {a : Word} {s : State}
    (hne : ∀ w ∈ cellsFrom s.mem a n, w ≠ 0)
    (hplain : s.params.trapReadsMapped = false ∨ ∀ j < n, a + BitVec.ofNat 16 j ≠ kbsrAddr) :
    scanString chars (n + k) a s = scanString chars k (a + BitVec.ofNat 16 n)
      (s.writeBytes ((cellsFrom s.mem a n).flatMap chars)) := by
  induction n generalizing a s with
  | zero =>
    rw [Nat.zero_add, show a + BitVec.ofNat 16 0 = a from BitVec.add_zero a]
    rfl
  | succ n ih =>
    have hnext (j : Nat) : a + 1 + BitVec.ofNat 16 j = a + BitVec.ofNat 16 (j + 1) := by
      rw [BitVec.add_assoc, Nat.add_comm j, BitVec.ofNat_add]
      rfl
    rw [cellsFrom_succ] at hne
    have hread : stringRead a s = (s.mem.read a, s) :=
      stringRead_plain (hplain.imp_right fun h => by simpa using h 0 (Nat.succ_pos n))
    have hcell : (stringRead a s).1 ≠ 0 := by
      rw [hread]
      exact hne _ (List.mem_cons_self ..)
    rw [Nat.add_right_comm, scanString_of_ne_zero _ hcell, hread, ih, hnext, cellsFrom_succ]
    · rw [State.writeBytes_mem, List.flatMap_cons, State.writeBytes_append]
    · rw [State.writeBytes_mem]
      exact fun w hw => hne w (List.mem_cons_of_mem _ hw)
    · rw [State.writeBytes_params]
      exact hplain.imp_right fun h j hj => hnext j ▸ h (j + 1) (Nat.succ_lt_succ hj)

/-- A string whose reads do not poll is written up to its zero cell. -/
theorem scanString_of_stringAt (chars : Word → List Byte) {s : State} {a : Word} {n : Nat}
    (hstr : StringAt s.mem a n) (hplain : StringReadsPlain s a n) :
    scanString chars memorySize a s =
      (true, s.writeBytes ((cellsFrom s.mem a n).flatMap chars)) := by
  obtain ⟨hn, hne, hzero⟩ := hstr
  obtain ⟨k, hk⟩ : ∃ k, memorySize = n + (k + 1) := ⟨memorySize - n - 1, by omega⟩
  have hread : stringRead (a + BitVec.ofNat 16 n)
      (s.writeBytes ((cellsFrom s.mem a n).flatMap chars)) =
        (0, s.writeBytes ((cellsFrom s.mem a n).flatMap chars)) := by
    rw [stringRead_plain, State.writeBytes_mem, hzero]
    rw [State.writeBytes_params]
    exact hplain.imp_right fun h => h n (Nat.le_refl n)
  rw [hk, scanString_plain chars (k + 1) hne (hplain.imp_right fun h j hj => h j hj.le),
    scanString_of_zero k (by rw [hread]), hread]

theorem putString_of_scan {chars : Word → List Byte} {s t : State}
    (h : scanString chars memorySize (s.readReg .r0) s = (true, t)) :
    putString chars s = .next t.flush := by
  rw [putString, h]
  rfl

theorem trapEntry_readReg_r0 (s : State) : (trapEntry s).readReg .r0 = s.readReg .r0 :=
  trapEntry_readReg_ne s (by decide)

/-- PUTS and PUTSP alike on a string whose reads do not poll. -/
theorem putString_of_stringAt (chars : Word → List Byte) {s : State} {n : Nat}
    (hstr : StringAt s.mem (s.readReg .r0) n) (hplain : StringReadsPlain s (s.readReg .r0) n) :
    putString chars (trapEntry s) =
      .next (afterText ((cellsFrom s.mem (s.readReg .r0) n).flatMap chars) s) := by
  have hscan := scanString_of_stringAt chars (s := trapEntry s) (a := s.readReg .r0) (n := n)
    (by rwa [trapEntry_mem]) (by rwa [StringReadsPlain, trapEntry_params])
  rw [putString_of_scan (by rwa [trapEntry_readReg_r0]), trapEntry_mem, afterText]

/-- The effect of writing a string's text after the trap entry. -/
theorem afterText_effect (text : List Byte) (s : State) :
    (afterText text s).console.output = s.console.output ++ text ∧
      OnlyCallsAdded s (afterText text s) ∧ TrapLinked s (afterText text s) ∧
      SameRegsBut [.r7] s (afterText text s) ∧ SameControl s (afterText text s) ∧
      (afterText text s).cond = s.cond ∧ (afterText text s).mem = s.mem := by
  have written := devicesOnly_afterText text s
  have keeps := trapKeeps_of_devices written
  exact ⟨afterText_output text s, onlyCallsAdded_afterText text s, keeps.linked, keeps.regs,
    ⟨keeps.pc, written.runState.trans (trapEntry_runState s), keeps.params⟩, keeps.cond,
    afterText_mem text s⟩

/-- Settles O43: PUTS writes the low byte of each cell of the string. -/
theorem putsWritesTheString : Obligations.PutsWritesTheString := by
  intro s n hstr hplain
  have hbytes : (cellsFrom s.mem (s.readReg .r0) n).flatMap putsChars =
      (cellsFrom s.mem (s.readReg .r0) n).map fun w => BitVec.ofNat 8 w.toNat := by
    rw [List.map_eq_flatMap]
    exact List.flatMap_congr fun w _ => by rw [putsChars, lowByte_eq_ofNat]
  rw [exec_trapPuts, putString_of_stringAt _ hstr hplain, hbytes]
  exact ⟨_, rfl, afterText_effect _ s⟩

theorem highByte_toNat (w : Word) : (highByte w).toNat = w.toNat / 256 := by
  rw [highByte, BitVec.extractLsb'_toNat, Nat.shiftRight_eq_div_pow]
  exact Nat.mod_eq_of_lt (by omega)

/-- The bytes of a packed cell, in numbers (rule R146). -/
theorem putspChars_eq (w : Word) : putspChars w = BitVec.ofNat 8 w.toNat ::
    if w.toNat / 256 = 0 then [] else [BitVec.ofNat 8 (w.toNat / 256)] := by
  have hhigh : highByte w = BitVec.ofNat 8 (w.toNat / 256) := by
    rw [← highByte_toNat, BitVec.ofNat_toNat, BitVec.setWidth_eq]
  have hzero : highByte w = 0 ↔ w.toNat / 256 = 0 := by
    rw [← highByte_toNat]
    exact BitVec.toNat_inj.symm
  rw [putspChars, lowByte_eq_ofNat]
  by_cases h : w.toNat / 256 = 0
  · rw [if_pos (hzero.mpr h), if_pos h]
  · rw [if_neg (mt hzero.mp h), if_neg h, hhigh]

/-- Settles O44: PUTSP writes one or two bytes of each cell of the string. -/
theorem putspWritesThePackedString : Obligations.PutspWritesThePackedString := by
  intro s n hstr hplain
  rw [exec_trapPutsp, putString_of_stringAt _ hstr hplain,
    List.flatMap_congr fun w _ => putspChars_eq w]
  exact ⟨_, rfl, afterText_effect _ s⟩

/-! ### PUTS and PUTSP in every state -/

/-- With raw string reads a scan changes the console's record only. -/
theorem scanString_raw (chars : Word → List Byte) (n : Nat) (a : Word) {s : State}
    (h : s.params.trapReadsMapped = false) :
    (scanString chars n a s).2.mem = s.mem ∧ OnlyCallsAdded s (scanString chars n a s).2 := by
  induction n generalizing a s with
  | zero => exact ⟨rfl, .refl s⟩
  | succ n ih =>
    have hread := stringRead_raw a h
    by_cases hz : (stringRead a s).1 = 0
    · rw [scanString_of_zero n hz, hread]
      exact ⟨rfl, .refl s⟩
    · rw [scanString_of_ne_zero n hz, hread]
      obtain ⟨hmem, hadd⟩ :=
        ih (s := s.writeBytes (chars (s.mem.read a))) (a + 1) (by rwa [State.writeBytes_params])
      exact ⟨hmem.trans (State.writeBytes_mem ..), .trans (.writeBytes (.refl s) _) hadd⟩

theorem scanString_raw_frame (chars : Word → List Byte) (n : Nat) (a : Word) {s : State}
    (h : s.params.trapReadsMapped = false) :
    (scanString chars n a (trapEntry s)).2.mem = s.mem ∧
      (scanString chars n a (trapEntry s)).2.console.input = s.console.input := by
  obtain ⟨hmem, hcons, -⟩ := scanString_raw chars n a (s := trapEntry s) (by rwa [trapEntry_params])
  exact ⟨hmem.trans (trapEntry_mem s), by rw [hcons, trapEntry_console]⟩

/-- PUTS and PUTSP alike: however the scan ends, it has touched only the devices, and with raw reads
only the console's record. -/
theorem putString_effect (chars : Word → List Byte) (s : State) :
    ∃ t, putString chars (trapEntry s) = .next t ∧
      (t.runState = s.runState ∨ t.runState = .faulted .unterminatedString) ∧
      TrapLinked s t ∧ SameRegsBut [.r7] s t ∧ t.pc = s.pc ∧ t.cond = s.cond ∧
      t.params = s.params ∧ SameCellsBut [kbsrAddr, kbdrAddr] s t ∧
      (s.params.trapReadsMapped = false → t.mem = s.mem ∧ t.console.input = s.console.input) := by
  have scan := devicesOnly_scanString chars memorySize ((trapEntry s).readReg .r0) (trapEntry s)
  have raw := scanString_raw_frame chars memorySize ((trapEntry s).readReg .r0) (s := s)
  have keeps := trapKeeps_of_devices scan
  have hcells := scan.cells
  rw [SameCellsBut, trapEntry_mem] at hcells
  rcases putString_cases chars (trapEntry s) with ⟨u, hu, e⟩ | ⟨u, hu, e⟩ <;>
    rw [hu] at scan raw keeps hcells
  · exact ⟨u.flush, e, .inl (scan.runState.trans (trapEntry_runState s)), keeps.linked, keeps.regs,
      keeps.pc, keeps.cond, keeps.params, hcells, raw⟩
  · exact ⟨_, e, .inr rfl, keeps.linked, keeps.regs, keeps.pc, keeps.cond, keeps.params, hcells, raw⟩

/-- Settles O45, for either trap. -/
theorem stringTrapsWriteNoState : Obligations.StringTrapsWriteNoState := by
  rintro s i (rfl | rfl)
  · exact putString_effect putsChars s
  · exact putString_effect putspChars s

/-! ### Memory without a zero cell (decisions D17, D18) -/

theorem filterMap_written_map_write (bs : List Byte) :
    (bs.map ConsoleEvent.write).filterMap ConsoleEvent.written? = bs := by
  rw [List.filterMap_map]
  exact List.filterMap_some

/-- The output of a cut record: what stood there before the scan, and as many of its bytes
as the free length allows. -/
theorem output_truncateOutput (s : State) (bs : List Byte) :
    (truncateOutput s.console.events.length (s.writeBytes bs)).console.output =
      s.console.output ++ bs.take (Config.freeOutputLength (s.writeBytes bs).console.draws) := by
  rw [truncateOutput, State.writeBytes_eq]
  simp only [State.setConsole_console, Console.output, List.take_left, List.drop_left,
    List.filterMap_append, filterMap_keepWrites, filterMap_written_map_write]

/-- Where no cell is zero a raw scan runs out, having written every cell it met. -/
theorem scanString_of_no_zero (chars : Word → List Byte) (n : Nat) (a : Word) {s : State}
    (hraw : s.params.trapReadsMapped = false) (hne : ∀ a, s.mem.read a ≠ 0) :
    scanString chars n a s = (false, s.writeBytes ((cellsFrom s.mem a n).flatMap chars)) := by
  refine scanString_plain chars 0 (fun w hw => ?_) (.inl hraw)
  obtain ⟨x, rfl⟩ := mem_cellsFrom hw
  exact hne x

theorem putString_of_no_zero (chars : Word → List Byte) {s : State}
    (hraw : s.params.trapReadsMapped = false) (hne : ∀ a, s.mem.read a ≠ 0) :
    putString chars s = raiseFault .unterminatedString (truncateOutput s.console.events.length
      (s.writeBytes ((cellsFrom s.mem (s.readReg .r0) memorySize).flatMap chars))) := by
  have hscan := scanString_of_no_zero chars memorySize (s.readReg .r0) hraw hne
  rcases putString_cases chars s with ⟨t, ht, -⟩ | ⟨t, ht, e⟩ <;> rw [hscan] at ht
  · cases congrArg Prod.fst ht
  · obtain ⟨-, rfl⟩ := Prod.mk.inj ht
    exact e

/-- What the fault of an unterminated string leaves: the record cut behind the trap entry's. -/
theorem unterminatedString_effect (bytes : List Byte) {s : State} {r : StepResult}
    (hr : r = raiseFault .unterminatedString
      (truncateOutput (trapEntry s).console.events.length ((trapEntry s).writeBytes bytes))) :
    ∃ t k, r = .next t ∧ t.runState = .faulted .unterminatedString ∧
      t.console.output = s.console.output ++ bytes.take k ∧ TrapLinked s t ∧
      SameRegsBut [.r7] s t ∧ t.pc = s.pc ∧ t.cond = s.cond ∧ t.mem = s.mem := by
  have keeps := ((trapKeeps_of_devices (devicesOnly_writeBytes (trapEntry s) bytes)).truncateOutput
    (trapEntry s).console.events.length).setRunState (.faulted .unterminatedString)
  have hout := (output_truncateOutput (trapEntry s) bytes).trans
    (congrArg (·.output ++ _) (trapEntry_console s))
  exact ⟨_, _, hr, rfl, hout, keeps.linked, keeps.regs, keeps.pc, keeps.cond, by simp⟩

/-- Settles O47: the scan meets as many cells as memory has, none of them zero, and the record is
cut. -/
theorem unterminatedStringFaults : Obligations.UnterminatedStringFaults := by
  intro s hraw hne i chars hcase
  have hexec : exec i s = putString chars (trapEntry s) := by
    rcases hcase with ⟨rfl, rfl⟩ | ⟨rfl, rfl⟩
    · exact exec_trapPuts s
    · exact exec_trapPutsp s
  have hput := putString_of_no_zero chars (s := trapEntry s) (by rwa [trapEntry_params])
    (by rwa [trapEntry_mem])
  rw [trapEntry_mem, trapEntry_readReg_r0] at hput
  exact unterminatedString_effect _ (hexec.trans hput)

/-! ### A mapped string at KBSR (decision D12) -/

/-- The scan where KBSR reads READY and the cell behind it is zero. -/
theorem scanString_of_ready {chars : Word → List Byte} {s t : State}
    (hread : stringRead kbsrAddr s = (kbsrReady, t)) (hz : t.mem.read (kbsrAddr + 1) = 0) :
    scanString chars memorySize kbsrAddr s = (true, t.writeBytes (chars kbsrReady)) := by
  have hnext : stringRead (kbsrAddr + 1) (t.writeBytes (chars kbsrReady)) =
      (0, t.writeBytes (chars kbsrReady)) := by
    rw [stringRead_plain (.inr (by decide)), State.writeBytes_mem, hz]
  have hready : (stringRead kbsrAddr s).1 ≠ 0 := by
    rw [hread]
    exact (by decide : kbsrReady ≠ 0)
  rw [show memorySize = 65534 + 1 + 1 from rfl, scanString_of_ne_zero _ hready, hread,
    scanString_of_zero _ (congrArg Prod.fst hnext), hnext]

/-- A poll that finds no input ends the string at once. -/
theorem putString_kbsr_of_not_ready (chars : Word → List Byte) {s : State} (hs : s.Inv)
    (hmapped : s.params.trapReadsMapped = true) (hr0 : s.readReg .r0 = kbsrAddr)
    (hpoll : s.console.pollHasInput.1 = false) :
    putString chars s = .next
      ((s.setConsole s.console.pollHasInput.2).setMem (s.mem.write kbsrAddr 0)).flush := by
  have hread : stringRead kbsrAddr s = _ :=
    (if_pos hmapped).trans (memRead_kbsr_of_not_ready hs hpoll)
  apply putString_of_scan
  rw [hr0, show memorySize = 65535 + 1 from rfl, scanString_of_zero _ (congrArg Prod.fst hread),
    hread]

/-- A poll that finds input makes the cell 0x8000, and a zero cell behind it ends the string. -/
theorem putString_kbsr_of_ready (chars : Word → List Byte) {s : State} (hs : s.Inv)
    (hmapped : s.params.trapReadsMapped = true) (hr0 : s.readReg .r0 = kbsrAddr)
    (hpoll : s.console.pollHasInput.1 = true) (hz : s.mem.read (kbsrAddr + 1) = 0) :
    ∃ b c, s.console.pollHasInput.2.takeByte = some (b, c) ∧
      putString chars s = .next (((s.setConsole c).setMem
        ((s.mem.write kbsrAddr kbsrReady).write kbdrAddr (zextByte b))).writeBytes
          (chars kbsrReady)).flush := by
  obtain ⟨b, c, hbyte, hmem⟩ := memRead_kbsr_of_ready hs hpoll
  have hread : stringRead kbsrAddr s = _ := (if_pos hmapped).trans hmem
  refine ⟨b, c, hbyte, putString_of_scan ?_⟩
  rw [hr0]
  refine scanString_of_ready hread ?_
  rw [State.setMem_mem, Memory.read_write_ne _ _ (by decide), Memory.read_write_ne _ _ (by decide),
    hz]

/-- Settles O46: the cell at KBSR reads as the poll answers, and the next cell ends the string. -/
theorem mappedStringReadOfKbsrPolls : Obligations.MappedStringReadOfKbsrPolls := by
  intro s i text hs hmapped hr0 hcase
  obtain ⟨chars, hexec, rfl⟩ : ∃ chars, exec i s = putString chars (trapEntry s) ∧
      chars kbsrReady = text := by
    rcases hcase with ⟨rfl, rfl⟩ | ⟨rfl, rfl⟩
    · exact ⟨putsChars, exec_trapPuts s, by decide⟩
    · exact ⟨putspChars, exec_trapPutsp s, by decide⟩
  have hinv : (trapEntry s).Inv := by rwa [State.Inv, trapEntry_mem]
  have hmapped' : (trapEntry s).params.trapReadsMapped = true := by rwa [trapEntry_params]
  have hr0' : (trapEntry s).readReg .r0 = kbsrAddr := by rwa [trapEntry_readReg_r0]
  obtain ⟨hinput, htail, hevents⟩ := s.console.pollHasInput_spec
  refine ⟨fun hi ht => ?_, fun b bs ds hi hp hz => ?_⟩
  · have hput := putString_kbsr_of_not_ready chars hinv hmapped' hr0'
      (by rw [trapEntry_console]; exact pollHasInput_of_no_input hi ht)
    rw [trapEntry_console, trapEntry_mem] at hput
    refine ⟨_, hexec.trans hput, ?_, trapEntry_runState s, s.mem.read_write_same _ _ hs,
      fun a ha => s.mem.read_write_ne _ fun e => ha (List.mem_singleton.mpr e)⟩
    rw [State.output_flush]
    exact output_of_events hevents rfl
  · obtain ⟨b', c, hbyte, hput⟩ := putString_kbsr_of_ready chars hinv hmapped' hr0'
      (by rw [trapEntry_console]; exact pollHasInput_of_listed hp hi) (by rwa [trapEntry_mem])
    rw [trapEntry_console] at hbyte
    rw [trapEntry_mem] at hput
    obtain ⟨-, -, -, htaken⟩ := Console.takeByte_spec hbyte
    obtain ⟨rfl, rfl⟩ : b' = b ∧ c.input = bs := by
      rw [hinput, hi] at htaken
      rcases htaken with h | ⟨h, -⟩
      · exact ⟨(List.cons.inj h).1.symm, (List.cons.inj h).2.symm⟩
      · cases h
    refine ⟨_, hexec.trans hput, ?_, ?_, State.writeBytes_input .., ?_⟩
    · rw [State.output_flush, State.output_writeBytes]
      congr 1
      exact (output_of_takeByte hbyte).trans (output_of_events hevents rfl)
    · simp
    · rw [SameCellsBut, State.flush_mem, State.writeBytes_mem, State.setMem_mem]
      refine ⟨?_, ?_, fun a ha => ?_⟩
      · rw [Memory.read_write_ne _ _ kbdr_ne_kbsr.symm, s.mem.read_write_same _ _ hs]
        rfl
      · rw [Memory.read_write_same _ _ _ (s.mem.wf_write _ _ hs), toNat_zextByte]
      · simp only [List.mem_cons, List.not_mem_nil, or_false, not_or] at ha
        rw [Memory.read_write_ne _ _ ha.2, s.mem.read_write_ne _ ha.1]

end Sys2Proof.Machine
end
